-- ==== Sys2Proof/Word.lean ====
section
/-! DEFINITION. The widths of the machine's values (spec/10_state.md R20 to R31, spec/30_encoding.md R91). -/

namespace Sys2Proof

/-- One byte: a V register, a timer, a memory cell, an immediate NN (R20, R25, R60, R91). -/
abbrev Byte := BitVec 8

/-- 16 bits: pc, I, a call-stack entry, an instruction (R23, R24, R26, R90). -/
abbrev Word := BitVec 16

/-- The 12-bit absolute address NNN (R91, R93). -/
abbrev Addr12 := BitVec 12

/-- A register number 0..15: a field X or Y, or `wait_reg` (R20, R28, R91). -/
abbrev Reg := Fin 16

/-- A logical key number 0..15 (R31). -/
abbrev Key := Fin 16

end Sys2Proof
end

