-- ==== Sys2Proof/Syntax.lean ====
section
/-! DEFINITION. The instruction set: one constructor per row of spec/opcode_table.json (spec/30_encoding.md R96). -/

namespace Sys2Proof

/-- The 34 instructions (R96). X and Y are register numbers, NN a byte, NNN a 12-bit address, N a count of sprite
rows. The order is the table's. -/
inductive Instr where
  /-- 00E0 `CLS` -/
  | cls
  /-- 00EE `RET` -/
  | ret
  /-- 1NNN `JP nnn` -/
  | jp (nnn : Addr12)
  /-- 2NNN `CALL nnn` -/
  | call (nnn : Addr12)
  /-- 3XNN `SE Vx, nn` -/
  | seI (x : Reg) (nn : Byte)
  /-- 4XNN `SNE Vx, nn` -/
  | sneI (x : Reg) (nn : Byte)
  /-- 5XY0 `SE Vx, Vy` -/
  | seR (x y : Reg)
  /-- 6XNN `LD Vx, nn` -/
  | ldI (x : Reg) (nn : Byte)
  /-- 7XNN `ADD Vx, nn` -/
  | addI (x : Reg) (nn : Byte)
  /-- 8XY0 `LD Vx, Vy` -/
  | ldR (x y : Reg)
  /-- 8XY1 `OR Vx, Vy` -/
  | orR (x y : Reg)
  /-- 8XY2 `AND Vx, Vy` -/
  | andR (x y : Reg)
  /-- 8XY3 `XOR Vx, Vy` -/
  | xorR (x y : Reg)
  /-- 8XY4 `ADD Vx, Vy` -/
  | addR (x y : Reg)
  /-- 8XY5 `SUB Vx, Vy` -/
  | sub (x y : Reg)
  /-- 8XY6 `SHR Vx`; Y is encoded and ignored (R99) -/
  | shr (x y : Reg)
  /-- 8XY7 `SUBN Vx, Vy` -/
  | subn (x y : Reg)
  /-- 8XYE `SHL Vx`; Y is encoded and ignored (R99) -/
  | shl (x y : Reg)
  /-- 9XY0 `SNE Vx, Vy` -/
  | sneR (x y : Reg)
  /-- ANNN `LD I, nnn` -/
  | ldIdx (nnn : Addr12)
  /-- BNNN `JP V0, nnn` -/
  | jpV0 (nnn : Addr12)
  /-- CXNN `RND Vx, nn` -/
  | rnd (x : Reg) (nn : Byte)
  /-- DXYN `DRW Vx, Vy, n`; n counts sprite rows, 0..15 (R91; checked by `Instr.wellFormed`) -/
  | drw (x y : Reg) (n : Nat)
  /-- EX9E `SKP Vx` -/
  | skp (x : Reg)
  /-- EXA1 `SKNP Vx` -/
  | sknp (x : Reg)
  /-- FX07 `LD Vx, DT` -/
  | ldVxDt (x : Reg)
  /-- FX0A `LD Vx, K` -/
  | ldVxK (x : Reg)
  /-- FX15 `LD DT, Vx` -/
  | ldDtVx (x : Reg)
  /-- FX18 `LD ST, Vx` -/
  | ldStVx (x : Reg)
  /-- FX1E `ADD I, Vx` -/
  | addIdx (x : Reg)
  /-- FX29 `LD F, Vx` -/
  | ldF (x : Reg)
  /-- FX33 `LD B, Vx` -/
  | ldB (x : Reg)
  /-- FX55 `LD [I], Vx` -/
  | stRegs (x : Reg)
  /-- FX65 `LD Vx, [I]` -/
  | ldRegs (x : Reg)
  deriving DecidableEq, Repr

end Sys2Proof
end

