-- ==== Sys2Proof/Config.lean ====
section
/-! DEFINITION. What is fixed for the machine (spec/00_scope.md R6, the rows marked "fixed"), the names of the
alternatives of its one open policy, and its one free value. The open parameters that the spec gives a default
(FONT, STACK_LIMIT, KEY_RANGE_POLICY) are chosen in Machine/Params.lean. -/

namespace Sys2Proof.Config

/-- MEM_SIZE: bytes of memory, addresses 0 to 4095 (R6, R60). -/
abbrev memSize : Nat := 4096

/-- FONT_LEN: 16 glyphs of 5 bytes, at address 0 (R6, R62). -/
abbrev fontLen : Nat := 80

/-- ROM_BASE and RESET_PC: where a ROM is loaded and where execution starts (R6, R61). -/
abbrev romBase : Nat := 0x200

/-- ROM_MAX: the most bytes a ROM may have, 4096 − 0x200 (R6, R76). -/
abbrev romMax : Nat := memSize - romBase

/-- KEY_RANGE_POLICY: what EX9E and EXA1 do when V[X] is no key number (R190). -/
inductive KeyRangePolicy where
  /-- raise the fatal `BadKeyIndex` -/
  | fault
  /-- behave as for key V[X] mod 16 -/
  | mask4
  /-- treat the key as not pressed -/
  | notPressed
  deriving DecidableEq, Repr

/-- The free value of CXNN: the byte that the host's generator supplies at the n-th draw (R151).
It has no body, so every statement about it holds whatever the byte is (notes/assumptions/2.md). -/
opaque randomByte : Nat → Byte

end Sys2Proof.Config
end

