-- ==== Sys2Proof/WellFormed.lean ====
section
/-! DEFINITION. Which terms the machine's words can express. Register numbers, NN and NNN are in range by their
types; what is left to check is the row count of DXYN and the length of a ROM. -/

namespace Sys2Proof

/-- N is a 4-bit field (spec/30_encoding.md R91, R93): a DXYN draws at most 15 rows. Every other operand is in range
by its type. -/
def Instr.wellFormed : Instr → Bool
  | .drw _ _ n => decide (n < 16)
  | .cls | .ret | .jp _ | .call _ | .seI _ _ | .sneI _ _ | .seR _ _ | .ldI _ _ | .addI _ _
  | .ldR _ _ | .orR _ _ | .andR _ _ | .xorR _ _ | .addR _ _ | .sub _ _ | .shr _ _ | .subn _ _ | .shl _ _
  | .sneR _ _ | .ldIdx _ | .jpV0 _ | .rnd _ _ | .skp _ | .sknp _ | .ldVxDt _ | .ldVxK _ | .ldDtVx _
  | .ldStVx _ | .addIdx _ | .ldF _ | .ldB _ | .stRegs _ | .ldRegs _ => true

/-- A ROM is at most 4096 − 0x200 bytes (spec/20_memory.md R76). -/
def romWellFormed (rom : List Byte) : Bool := decide (rom.length ≤ Config.romMax)

end Sys2Proof
end

