-- ==== Sys2Proof/Decode.lean ====
section
/-! DEFINITION. From 16-bit words and bytes to instructions and back (spec/30_encoding.md R90 to R100). -/

namespace Sys2Proof

/-! ### Fields (R91) -/

/-- The family, `op[15:12]`. -/
def fieldFamily (op : Word) : BitVec 4 := op.extractLsb' 12 4

/-- X, `op[11:8]`, a register number. -/
def fieldX (op : Word) : Reg := (op.extractLsb' 8 4).toFin

/-- Y, `op[7:4]`, a register number. -/
def fieldY (op : Word) : Reg := (op.extractLsb' 4 4).toFin

/-- N, `op[3:0]`. -/
def fieldN (op : Word) : BitVec 4 := op.extractLsb' 0 4

/-- NN, `op[7:0]`. -/
def fieldNN (op : Word) : Byte := op.extractLsb' 0 8

/-- NNN, `op[11:0]`. -/
def fieldNNN (op : Word) : Addr12 := op.extractLsb' 0 12

/-! ### Decode (R94, R95) -/

/-- What a 16-bit value decodes to: exactly one instruction, or unknown (R95). -/
inductive Decoded where
  | instr (i : Instr)
  | unknownOpcode (op : Word)
  deriving DecidableEq, Repr

/-- Family 0: only 00E0 and 00EE, every digit significant (R94, R97). -/
def decodeFamily0 (op : Word) : Decoded :=
  if op = 0x00E0#16 then .instr .cls
  else if op = 0x00EE#16 then .instr .ret
  else .unknownOpcode op

/-- Families 5 and 9: the low nibble must be 0 (R94, R97). -/
def decodeZeroNibble (op : Word) (i : Instr) : Decoded :=
  if fieldN op = 0x0#4 then .instr i else .unknownOpcode op

/-- Family 8: the low nibble selects the operation (R94, R97). -/
def decodeFamily8 (op : Word) : Decoded :=
  let x := fieldX op
  let y := fieldY op
  match (fieldN op).toNat with
  | 0x0 => .instr (.ldR x y)
  | 0x1 => .instr (.orR x y)
  | 0x2 => .instr (.andR x y)
  | 0x3 => .instr (.xorR x y)
  | 0x4 => .instr (.addR x y)
  | 0x5 => .instr (.sub x y)
  | 0x6 => .instr (.shr x y)
  | 0x7 => .instr (.subn x y)
  | 0xE => .instr (.shl x y)
  | _   => .unknownOpcode op

/-- Family E: the low byte selects the operation (R94, R97). -/
def decodeFamilyE (op : Word) : Decoded :=
  match (fieldNN op).toNat with
  | 0x9E => .instr (.skp (fieldX op))
  | 0xA1 => .instr (.sknp (fieldX op))
  | _    => .unknownOpcode op

/-- Family F: the low byte selects the operation (R94, R97). -/
def decodeFamilyF (op : Word) : Decoded :=
  let x := fieldX op
  match (fieldNN op).toNat with
  | 0x07 => .instr (.ldVxDt x)
  | 0x0A => .instr (.ldVxK x)
  | 0x15 => .instr (.ldDtVx x)
  | 0x18 => .instr (.ldStVx x)
  | 0x1E => .instr (.addIdx x)
  | 0x29 => .instr (.ldF x)
  | 0x33 => .instr (.ldB x)
  | 0x55 => .instr (.stRegs x)
  | 0x65 => .instr (.ldRegs x)
  | _    => .unknownOpcode op

/-- R94's procedure: exact match on every fixed digit of the 34 patterns; what matches none is unknown. -/
def decode (op : Word) : Decoded :=
  match (fieldFamily op).toNat with
  | 0x0 => decodeFamily0 op
  | 0x1 => .instr (.jp (fieldNNN op))
  | 0x2 => .instr (.call (fieldNNN op))
  | 0x3 => .instr (.seI (fieldX op) (fieldNN op))
  | 0x4 => .instr (.sneI (fieldX op) (fieldNN op))
  | 0x5 => decodeZeroNibble op (.seR (fieldX op) (fieldY op))
  | 0x6 => .instr (.ldI (fieldX op) (fieldNN op))
  | 0x7 => .instr (.addI (fieldX op) (fieldNN op))
  | 0x8 => decodeFamily8 op
  | 0x9 => decodeZeroNibble op (.sneR (fieldX op) (fieldY op))
  | 0xA => .instr (.ldIdx (fieldNNN op))
  | 0xB => .instr (.jpV0 (fieldNNN op))
  | 0xC => .instr (.rnd (fieldX op) (fieldNN op))
  | 0xD => .instr (.drw (fieldX op) (fieldY op) (fieldN op).toNat)
  | 0xE => decodeFamilyE op
  | _   => decodeFamilyF op   -- 0xF, the sixteenth and last value of a 4-bit field

/-! ### Bytes (R66, R90) -/

/-- The two bytes of a fetch as one word, the byte at the lower address on top (R66). -/
def wordOfBytes (hi lo : Byte) : Word := hi ++ lo

/-- The byte of a word that lies at the lower address (R66). -/
def highByte (op : Word) : Byte := op.extractLsb' 8 8

/-- The byte of a word that lies at the higher address (R66). -/
def lowByte (op : Word) : Byte := op.extractLsb' 0 8

/-- What the head of a byte list decodes to: one 16-bit value's reading with the bytes after it, or too few bytes. -/
inductive DecodedBytes where
  | one (d : Decoded) (rest : List Byte)
  | truncated (bytes : List Byte)
  deriving DecidableEq, Repr

/-- Decode the two bytes at the head of a list; total on any bytes (R90, R95). -/
def decodeBytes : List Byte → DecodedBytes
  | hi :: lo :: rest => .one (decode (wordOfBytes hi lo)) rest
  | bytes => .truncated bytes

/-! ### Encode (R92, R96) -/

/-- A register number as the field X, `X << 8`. -/
def putX (x : Reg) : Word := (BitVec.ofFin x : BitVec 4).setWidth 16 <<< 8

/-- A register number as the field Y, `Y << 4`. -/
def putY (y : Reg) : Word := (BitVec.ofFin y : BitVec 4).setWidth 16 <<< 4

/-- Format R, `base | X << 8 | Y << 4`. -/
def formatR (base : Word) (x y : Reg) : Word := base ||| putX x ||| putY y

/-- Format I, `base | X << 8 | NN`. -/
def formatI (base : Word) (x : Reg) (nn : Byte) : Word := base ||| putX x ||| nn.setWidth 16

/-- Format A, `base | NNN`. -/
def formatA (base : Word) (nnn : Addr12) : Word := base ||| nnn.setWidth 16

/-- Format F, `base | X << 8`. -/
def formatF (base : Word) (x : Reg) : Word := base ||| putX x

/-- Format D, `base | X << 8 | Y << 4 | N`; N is cut to its four bits. -/
def formatD (base : Word) (x y : Reg) (n : Nat) : Word :=
  base ||| putX x ||| putY y ||| (BitVec.ofNat 4 n).setWidth 16

/-- The word of an instruction, from the encoding lines of the instructions' rules (R92, R96, and "Encoding:" of
R120 to R196). -/
def encode : Instr → Word
  | .cls          => 0x00E0#16
  | .ret          => 0x00EE#16
  | .jp nnn       => formatA 0x1000#16 nnn
  | .call nnn     => formatA 0x2000#16 nnn
  | .seI x nn     => formatI 0x3000#16 x nn
  | .sneI x nn    => formatI 0x4000#16 x nn
  | .seR x y      => formatR 0x5000#16 x y
  | .ldI x nn     => formatI 0x6000#16 x nn
  | .addI x nn    => formatI 0x7000#16 x nn
  | .ldR x y      => formatR 0x8000#16 x y
  | .orR x y      => formatR 0x8001#16 x y
  | .andR x y     => formatR 0x8002#16 x y
  | .xorR x y     => formatR 0x8003#16 x y
  | .addR x y     => formatR 0x8004#16 x y
  | .sub x y      => formatR 0x8005#16 x y
  | .shr x y      => formatR 0x8006#16 x y
  | .subn x y     => formatR 0x8007#16 x y
  | .shl x y      => formatR 0x800E#16 x y
  | .sneR x y     => formatR 0x9000#16 x y
  | .ldIdx nnn    => formatA 0xA000#16 nnn
  | .jpV0 nnn     => formatA 0xB000#16 nnn
  | .rnd x nn     => formatI 0xC000#16 x nn
  | .drw x y n    => formatD 0xD000#16 x y n
  | .skp x        => formatF 0xE09E#16 x
  | .sknp x       => formatF 0xE0A1#16 x
  | .ldVxDt x     => formatF 0xF007#16 x
  | .ldVxK x      => formatF 0xF00A#16 x
  | .ldDtVx x     => formatF 0xF015#16 x
  | .ldStVx x     => formatF 0xF018#16 x
  | .addIdx x     => formatF 0xF01E#16 x
  | .ldF x        => formatF 0xF029#16 x
  | .ldB x        => formatF 0xF033#16 x
  | .stRegs x     => formatF 0xF055#16 x
  | .ldRegs x     => formatF 0xF065#16 x

/-- The two bytes of an instruction in memory order (R66). -/
def encodeBytes (i : Instr) : List Byte := [highByte (encode i), lowByte (encode i)]

/-! ### The opcode map as match and mask (R96) -/

/-- One row's match and mask: `op & mask = match` selects the instruction (R96). -/
structure OpcodeRow where
  pattern : Word
  mask : Word
  deriving DecidableEq, Repr

/-- The row of R96 that an instruction belongs to. -/
def opcodeRow : Instr → OpcodeRow
  | .cls        => ⟨0x00E0#16, 0xFFFF#16⟩
  | .ret        => ⟨0x00EE#16, 0xFFFF#16⟩
  | .jp _       => ⟨0x1000#16, 0xF000#16⟩
  | .call _     => ⟨0x2000#16, 0xF000#16⟩
  | .seI _ _    => ⟨0x3000#16, 0xF000#16⟩
  | .sneI _ _   => ⟨0x4000#16, 0xF000#16⟩
  | .seR _ _    => ⟨0x5000#16, 0xF00F#16⟩
  | .ldI _ _    => ⟨0x6000#16, 0xF000#16⟩
  | .addI _ _   => ⟨0x7000#16, 0xF000#16⟩
  | .ldR _ _    => ⟨0x8000#16, 0xF00F#16⟩
  | .orR _ _    => ⟨0x8001#16, 0xF00F#16⟩
  | .andR _ _   => ⟨0x8002#16, 0xF00F#16⟩
  | .xorR _ _   => ⟨0x8003#16, 0xF00F#16⟩
  | .addR _ _   => ⟨0x8004#16, 0xF00F#16⟩
  | .sub _ _    => ⟨0x8005#16, 0xF00F#16⟩
  | .shr _ _    => ⟨0x8006#16, 0xF00F#16⟩
  | .subn _ _   => ⟨0x8007#16, 0xF00F#16⟩
  | .shl _ _    => ⟨0x800E#16, 0xF00F#16⟩
  | .sneR _ _   => ⟨0x9000#16, 0xF00F#16⟩
  | .ldIdx _    => ⟨0xA000#16, 0xF000#16⟩
  | .jpV0 _     => ⟨0xB000#16, 0xF000#16⟩
  | .rnd _ _    => ⟨0xC000#16, 0xF000#16⟩
  | .drw _ _ _  => ⟨0xD000#16, 0xF000#16⟩
  | .skp _      => ⟨0xE09E#16, 0xF0FF#16⟩
  | .sknp _     => ⟨0xE0A1#16, 0xF0FF#16⟩
  | .ldVxDt _   => ⟨0xF007#16, 0xF0FF#16⟩
  | .ldVxK _    => ⟨0xF00A#16, 0xF0FF#16⟩
  | .ldDtVx _   => ⟨0xF015#16, 0xF0FF#16⟩
  | .ldStVx _   => ⟨0xF018#16, 0xF0FF#16⟩
  | .addIdx _   => ⟨0xF01E#16, 0xF0FF#16⟩
  | .ldF _      => ⟨0xF029#16, 0xF0FF#16⟩
  | .ldB _      => ⟨0xF033#16, 0xF0FF#16⟩
  | .stRegs _   => ⟨0xF055#16, 0xF0FF#16⟩
  | .ldRegs _   => ⟨0xF065#16, 0xF0FF#16⟩

/-- A row selects a word (R96). -/
def OpcodeRow.selects (r : OpcodeRow) (op : Word) : Bool := decide (op &&& r.mask = r.pattern)

/-- One instruction of every row, in the table's order. -/
def onePerRow : List Instr :=
  [.cls, .ret, .jp 0, .call 0, .seI 0 0, .sneI 0 0, .seR 0 0, .ldI 0 0, .addI 0 0] ++
  [.ldR 0 0, .orR 0 0, .andR 0 0, .xorR 0 0, .addR 0 0, .sub 0 0, .shr 0 0, .subn 0 0, .shl 0 0] ++
  [.sneR 0 0, .ldIdx 0, .jpV0 0, .rnd 0 0, .drw 0 0 0, .skp 0, .sknp 0] ++
  [.ldVxDt 0, .ldVxK 0, .ldDtVx 0, .ldStVx 0, .addIdx 0, .ldF 0, .ldB 0, .stRegs 0, .ldRegs 0]

/-- The 34 rows of R96. -/
def opcodeRows : List OpcodeRow := onePerRow.map opcodeRow

/-! ### The host's table words -/

/-- A table word, its bits above `nbits` cleared, as the instruction it is; every instruction is one 16-bit word. -/
def wordOfTable (nbits w : Nat) : Word := BitVec.ofNat 16 (w % 2 ^ nbits)

/-- The instruction the decoder reads from a table word laid out in memory order, none where it is unknown. -/
def decodeTableWord (nbits w : Nat) : Option Instr :=
  let op := wordOfTable nbits w
  match decodeBytes [highByte op, lowByte op] with
  | .one (.instr i) _ => some i
  | .one (.unknownOpcode _) _ => none
  | .truncated _ => none

end Sys2Proof
end

