-- ==== Sys2Proof/Machine/Params.lean ====
section
/-! DEFINITION. The values this machine takes for the spec's open parameters that have a default
(spec/00_scope.md R6, the rows marked "open" or "decided"). -/

namespace Sys2Proof.Machine

/-- STACK_LIMIT (R26, decision D5; notes/assumptions/9.md). -/
abbrev stackLimit : Nat := 16

/-- KEY_RANGE_POLICY, the spec's default (R190, decision D7; notes/assumptions/11.md). -/
def keyRangePolicy : Config.KeyRangePolicy := .fault

/-- FONT: the default table of R62, from general knowledge (decision D3; notes/assumptions/7.md). PRESUMED. -/
def font : List Byte :=
  [0xF0, 0x90, 0x90, 0x90, 0xF0] ++ [0x20, 0x60, 0x20, 0x20, 0x70] ++   -- 0 1
  [0xF0, 0x10, 0xF0, 0x80, 0xF0] ++ [0xF0, 0x10, 0xF0, 0x10, 0xF0] ++   -- 2 3
  [0x90, 0x90, 0xF0, 0x10, 0x10] ++ [0xF0, 0x80, 0xF0, 0x10, 0xF0] ++   -- 4 5
  [0xF0, 0x80, 0xF0, 0x90, 0xF0] ++ [0xF0, 0x10, 0x20, 0x40, 0x40] ++   -- 6 7
  [0xF0, 0x90, 0xF0, 0x90, 0xF0] ++ [0xF0, 0x90, 0xF0, 0x10, 0xF0] ++   -- 8 9
  [0xF0, 0x90, 0xF0, 0x90, 0x90] ++ [0xE0, 0x90, 0xE0, 0x90, 0xE0] ++   -- A B
  [0xF0, 0x80, 0x80, 0x80, 0xF0] ++ [0xE0, 0x90, 0x90, 0x90, 0xE0] ++   -- C D
  [0xF0, 0x80, 0xF0, 0x80, 0xF0] ++ [0xF0, 0x80, 0xF0, 0x80, 0x80]      -- E F

/-- What an address reads as at reset, before any ROM is loaded: the font table at 0..79, zero elsewhere (R40, R61).
Memory lists only what differs from it. -/
def resetByte (a : Nat) : Byte := font.getD a 0

end Sys2Proof.Machine
end

