-- ==== Sys2Proof/Machine/State.lean ====
section
/-! DEFINITION. The state of the machine, the reasons a step can stop, and the state after reset
(spec/10_state.md, spec/60_exceptions.md R210). -/

namespace Sys2Proof.Machine

/-- The fatal faults (R210): each ends the run (R221, R223). All are safe: the machine stops where the spec says it
stops (BadKeyIndex: where the spec's default policy says so, notes/assumptions/11.md). -/
inductive Fault where
  /-- A memory address outside 0..4095, the lowest offending one. Raised by the fetch, FX33, FX55, FX65 and DXYN
  (R211). Safe. -/
  | outOfBounds (addr : Nat)
  /-- A call with the call stack full; the address of the 2NNN. Raised by 2NNN (R213). Safe. -/
  | stackOverflow (addr : Word)
  /-- A return with the call stack empty; the address of the 00EE. Raised by 00EE (R214). Safe. -/
  | stackUnderflow (addr : Word)
  /-- V[X] is no key number under KEY_RANGE_POLICY = fault; the value of V[X]. Raised by EX9E and EXA1 (R216).
  Safe. -/
  | badKeyIndex (value : Byte)
  deriving DecidableEq, Repr

/-- Reasons for which there is no machine step or no launch state at all. -/
inductive Refusal where
  /-- An instruction whose arm has no meaning yet. Raised by exec's refused arms only. Safe. -/
  | notModelled (mnemonic : String)
  /-- A ROM of more than 3584 bytes; its length. Raised by `loadRom`: the run never starts (R76, R215). Safe. -/
  | romTooLarge (length : Nat)
  deriving DecidableEq, Repr

/-- The non-fatal report of a CPU step (R13, R212). -/
inductive Diagnostic where
  /-- The fetched 16-bit value is none of the 34 instructions (R212). -/
  | unknownOpcode (op : Word)
  deriving DecidableEq, Repr

/-- What the host may deliver between two CPU steps (R219). -/
inductive HostEvent where
  /-- `tick()`: both timers (R226) -/
  | tick
  /-- `press(k)` (R231) -/
  | press (k : Key)
  /-- `release(k)` (R231) -/
  | release (k : Key)
  deriving DecidableEq, Repr

/-- Memory as the list of the cells that differ from what they read as at reset, addresses rising
(`Memory.wf`, in Machine/Ops.lean). -/
abbrev Memory := List Host.Cell

/-- The framebuffer, row by row from the top, each row from its left end: pixel (x, y) is `fb[y][x]` (R30, R181). -/
abbrev Framebuffer := Vector (Vector Bool 64) 32

/-- The state of the machine (10_state.md), and three fields of the model's own at the end. -/
structure State where
  /-- V0 to VF (R20, R21) -/
  v : Vector Byte 16
  /-- I (R24) -/
  index : Word
  /-- DT, the delay timer (R25) -/
  dt : Byte
  /-- ST, the sound timer (R25) -/
  st : Byte
  /-- mem (R30, R60) -/
  mem : Memory
  /-- pc (R23) -/
  pc : Word
  /-- the call stack, the most recently pushed entry first (R26) -/
  stack : List Word
  /-- the await-key state (R27) -/
  halted : Bool
  /-- the register that will receive the key (R28) -/
  waitReg : Reg
  /-- FB (R30) -/
  fb : Framebuffer
  /-- the key states, true when pressed (R31) -/
  keys : Vector Bool 16
  /-- the sticky fault mark (R42) -/
  fault : Option Fault
  /-- MODEL'S OWN: the diagnostic of the latest CPU step (R13, R212; notes/assumptions/3.md) -/
  diag : Option Diagnostic
  /-- MODEL'S OWN: how many random bytes have been drawn (R151; notes/assumptions/2.md) -/
  draws : Nat
  /-- MODEL'S OWN: the events the host delivers before each coming CPU step (R229; notes/assumptions/1.md) -/
  schedule : List (List HostEvent)
  deriving DecidableEq, Repr

/-- The three outcomes of a meaning or a step. -/
abbrev Result := Host.Outcome State Fault Refusal

/-- The state after reset with no ROM loaded: the table of R40. The zeros of V, I, DT and ST are decision D1, the dark
framebuffer, released keys, empty stack, `halted` and `waitReg` decision D2 (notes/assumptions/5.md, 6.md). -/
def State.reset : State where
  v := Vector.replicate 16 0
  index := 0
  dt := 0
  st := 0
  mem := []
  pc := 0x200
  stack := []
  halted := false
  waitReg := 0
  fb := Vector.replicate 32 (Vector.replicate 64 false)
  keys := Vector.replicate 16 false
  fault := none
  diag := none
  draws := 0
  schedule := []

end Sys2Proof.Machine
end

