-- ==== Sys2Proof/Machine/Ops.lean ====
section
/-! DEFINITION. The operations that the meanings share: memory, registers, pc, call stack, raising a fault. -/

namespace Sys2Proof.Machine

/-! ### Memory as data -/

/-- The byte a memory holds at an address; an unlisted address reads as at reset (R40, R61). -/
def Memory.peek : Memory → Nat → Byte
  | [], a => resetByte a
  | (b, v) :: m, a => if b = a then v else Memory.peek m a

/-- Put a cell at its place among rising addresses. -/
def Memory.insert (a : Nat) (v : Byte) : Memory → Memory
  | [] => [(a, v)]
  | (b, w) :: m => if a < b then (a, v) :: (b, w) :: m else (b, w) :: Memory.insert a v m

/-- Set the byte at an address; a cell that reads as at reset is not listed, so equal memories are equal lists. -/
def Memory.poke (m : Memory) (a : Nat) (v : Byte) : Memory :=
  let rest := m.filter (fun c => c.1 != a)
  if v = resetByte a then rest else Memory.insert a v rest

/-- Bytes set one after another from an address upward. -/
def Memory.pokeBytes (m : Memory) (a : Nat) : List Byte → Memory
  | [] => m
  | b :: bs => Memory.pokeBytes (Memory.poke m a b) (a + 1) bs

/-- The canonical form: addresses strictly rising and inside the address space, no cell that reads as at reset. -/
def Memory.wf : Memory → Bool
  | [] => true
  | (a, v) :: m =>
    decide (a < Config.memSize) && v != resetByte a && m.all (fun c => decide (a < c.1)) && Memory.wf m

/-! ### Checked access (R10, R63) -/

/-- `MemRead(a, 1)`: the byte at `a`, or OutOfBounds(a) (R63). -/
def memRead (m : Memory) (a : Nat) : Except Fault Byte :=
  if a < Config.memSize then .ok (Memory.peek m a) else .error (.outOfBounds a)

/-- `MemWrite(a, 1, v)`: the memory with `v` at `a`, or OutOfBounds(a) (R63). -/
def memWrite (m : Memory) (a : Nat) (v : Byte) : Except Fault Memory :=
  if a < Config.memSize then .ok (Memory.poke m a v) else .error (.outOfBounds a)

/-- `n` bytes from `a` upward, one checked byte at a time; the first address that fails is the one reported
(R69, R166). -/
def readBlock (m : Memory) (a : Nat) : Nat → Except Fault (List Byte)
  | 0 => .ok []
  | n + 1 =>
    match memRead m a with
    | .error k => .error k
    | .ok b =>
      match readBlock m (a + 1) n with
      | .error k => .error k
      | .ok bs => .ok (b :: bs)

/-- The bytes stored from `a` upward, one checked byte at a time. A block that fails answers no memory at all, so none
of its bytes is written (R69, R166, R222). -/
def writeBlock (m : Memory) (a : Nat) : List Byte → Except Fault Memory
  | [] => .ok m
  | b :: bs =>
    match memWrite m a b with
    | .error k => .error k
    | .ok m' => writeBlock m' (a + 1) bs

/-! ### One field at a time -/

def State.setV (s : State) (v : Vector Byte 16) : State := { s with v := v }
def State.setIndex (s : State) (w : Word) : State := { s with index := w }
def State.setDt (s : State) (b : Byte) : State := { s with dt := b }
def State.setSt (s : State) (b : Byte) : State := { s with st := b }
def State.setMem (s : State) (m : Memory) : State := { s with mem := m }
def State.setPc (s : State) (w : Word) : State := { s with pc := w }
def State.setStack (s : State) (l : List Word) : State := { s with stack := l }
def State.setHalted (s : State) (b : Bool) : State := { s with halted := b }
def State.setWaitReg (s : State) (x : Reg) : State := { s with waitReg := x }
def State.setFb (s : State) (fb : Framebuffer) : State := { s with fb := fb }
def State.setKeys (s : State) (ks : Vector Bool 16) : State := { s with keys := ks }
def State.setFault (s : State) (k : Option Fault) : State := { s with fault := k }
def State.setDiag (s : State) (d : Option Diagnostic) : State := { s with diag := d }
def State.setDraws (s : State) (n : Nat) : State := { s with draws := n }
def State.setSchedule (s : State) (l : List (List HostEvent)) : State := { s with schedule := l }

/-! ### Registers -/

/-- VF, register 15: an ordinary register and the only flag (R21, R22). -/
abbrev vf : Reg := 15

/-- Read `V[x]`; no register is special to read (R20). -/
def readReg (s : State) (x : Reg) : Byte := s.v[x]

/-- Write `V[x]`; no register is hard-wired (R20). -/
def writeReg (x : Reg) (b : Byte) (s : State) : State := s.setV (s.v.set x b)

/-- `V[k], V[k+1], …` take the bytes in turn; there is no register past VF (R165). -/
def writeRegsFrom (v : Vector Byte 16) : Nat → List Byte → Vector Byte 16
  | _, [] => v
  | k, b :: bs => writeRegsFrom (if h : k < 16 then v.set k b else v) (k + 1) bs

/-- `V[0]` to `V[x]`, lowest first (R164). -/
def regsUpTo (s : State) (x : Reg) : List Byte := s.v.toList.take (x.val + 1)

/-! ### pc (R23, R104) -/

/-- Move pc past one 16-bit instruction: the advance at fetch and the skip (R104). -/
def advancePc (s : State) : State := s.setPc (s.pc + 2)

/-- Skip the next instruction when the condition holds (R104). -/
def skipIf (c : Bool) (s : State) : State := if c then advancePc s else s

/-- The address the running instruction was fetched from: pc already holds it plus 2 (R14, R104). -/
def instrAddr (s : State) : Word := s.pc - 2

/-! ### Faults (R221, R222, R42) -/

/-- End the step with a fatal fault. There is no vector, no saved state and no handler (R221); the instruction's
writes are not performed (R222). What the machine is left as is `afterStep`, in Machine/Cycle.lean. -/
def raise (k : Fault) : Result := .fault k

/-- Go on with a value, or end the step with the fault that stands for it. -/
def orRaise {α : Type} (r : Except Fault α) (go : α → Result) : Result :=
  match r with
  | .ok a => go a
  | .error k => raise k

/-- Set the sticky fault mark (R42). Nothing clears it: there is no return from a fault (R223). -/
def recordFault (k : Fault) (s : State) : State := s.setFault (some k)

/-- The spec's numbers for the fatal faults (R210, decision D10). -/
def Fault.code : Fault → Nat
  | .outOfBounds _ => 1
  | .stackOverflow _ => 3
  | .stackUnderflow _ => 4
  | .badKeyIndex _ => 6

/-- The spec's number for the report (R210, decision D10). -/
def Diagnostic.code : Diagnostic → Nat
  | .unknownOpcode _ => 2

/-! ### Call stack (R26) -/

/-- Push a return address, unless the stack already holds `limit` entries (R26, R122). -/
def pushReturn (limit : Nat) (ret : Word) (s : State) : Except Fault State :=
  if s.stack.length < limit then .ok (s.setStack (ret :: s.stack)) else .error (.stackOverflow (instrAddr s))

/-- Pop the most recent return address into pc, unless the stack is empty (R26, R120). -/
def popReturn (s : State) : Except Fault State :=
  match s.stack with
  | [] => .error (.stackUnderflow (instrAddr s))
  | top :: rest => .ok ((s.setStack rest).setPc top)

end Sys2Proof.Machine
end

