-- ==== Sys2Proof/Machine/Flags.lean ====
section
/-! DEFINITION. The flag computations: the seven instructions that write VF beside their result (spec/10_state.md
R22), and the two orders of the writes (spec/41_load_arith_logic.md R140). -/

namespace Sys2Proof.Machine

/-- A flag as the byte VF takes: 1 or 0 (R22). -/
def flagByte (f : Bool) : Byte := if f then 1 else 0

/-- 8XY4: the sum leaves 8 bits (R147). -/
def carryOut (a b : Byte) : Bool := decide (a.toNat + b.toNat > 255)

/-- 8XY5 and 8XY7: no borrow is needed for `a - b`; equality needs none (R148, R150). -/
def noBorrow (a b : Byte) : Bool := decide (a.toNat ≥ b.toNat)

/-- 8XY6: bit 0 before the shift (R149). -/
def lowBit (a : Byte) : Bool := a.getLsbD 0

/-- 8XYE: bit 7 before the shift (R152). -/
def highBit (a : Byte) : Bool := a.getLsbD 7

/-- FX1E: the sum leaves the 12-bit range (R161). -/
def indexOverflow (i : Word) (a : Byte) : Bool := decide (i.toNat + a.toNat > 0xFFF)

/-- Write VF as a flag (R22). -/
def writeFlag (f : Bool) (s : State) : State := writeReg vf (flagByte f) s

/-- "VX, then VF": the order of 8XY4. With X = F the flag stays (R140, decision D6). -/
def resultThenFlag (x : Reg) (r : Byte) (f : Bool) (s : State) : State := writeFlag f (writeReg x r s)

/-- "VF, then VX": the order of 8XY5, 8XY6, 8XY7 and 8XYE. With X = F the result stays (R140, decision D6). -/
def flagThenResult (x : Reg) (r : Byte) (f : Bool) (s : State) : State := writeReg x r (writeFlag f s)

end Sys2Proof.Machine
end

