-- ==== Sys2Proof/Machine/Arith.lean ====
section
/-! DEFINITION. Load, arithmetic, logic, shift and random instructions (spec/41_load_arith_logic.md). Operands are
sampled before any write (R102). -/

namespace Sys2Proof.Machine

/-- 6XNN `LD Vx, nn` (R141). -/
def execLdI (x : Reg) (nn : Byte) (s : State) : Result := .next (writeReg x nn s)

/-- 7XNN `ADD Vx, nn`: modulo 256, VF unaffected (R142). -/
def execAddI (x : Reg) (nn : Byte) (s : State) : Result := .next (writeReg x (readReg s x + nn) s)

/-- 8XY0 `LD Vx, Vy` (R143). -/
def execLdR (x y : Reg) (s : State) : Result := .next (writeReg x (readReg s y) s)

/-- 8XY1 `OR Vx, Vy`; VF is not written (R144). -/
def execOr (x y : Reg) (s : State) : Result := .next (writeReg x (readReg s x ||| readReg s y) s)

/-- 8XY2 `AND Vx, Vy`; VF is not written (R145). -/
def execAnd (x y : Reg) (s : State) : Result := .next (writeReg x (readReg s x &&& readReg s y) s)

/-- 8XY3 `XOR Vx, Vy`; VF is not written (R146). -/
def execXor (x y : Reg) (s : State) : Result := .next (writeReg x (readReg s x ^^^ readReg s y) s)

/-- 8XY4 `ADD Vx, Vy`: VX, then VF = carry (R147). -/
def execAddR (x y : Reg) (s : State) : Result :=
  let a := readReg s x
  let b := readReg s y
  .next (resultThenFlag x (a + b) (carryOut a b) s)

/-- 8XY5 `SUB Vx, Vy`: VF = no borrow, then VX (R148). -/
def execSub (x y : Reg) (s : State) : Result :=
  let a := readReg s x
  let b := readReg s y
  .next (flagThenResult x (a - b) (noBorrow a b) s)

/-- 8XY6 `SHR Vx`: VF = bit 0, then VX; Y is ignored (R99, R149). -/
def execShr (x _y : Reg) (s : State) : Result :=
  let a := readReg s x
  .next (flagThenResult x (a >>> 1) (lowBit a) s)

/-- 8XY7 `SUBN Vx, Vy`: VF = no borrow, then VX = VY − VX (R150). -/
def execSubn (x y : Reg) (s : State) : Result :=
  let a := readReg s x
  let b := readReg s y
  .next (flagThenResult x (b - a) (noBorrow b a) s)

/-- 8XYE `SHL Vx`: VF = bit 7, then VX; Y is ignored (R99, R152). -/
def execShl (x _y : Reg) (s : State) : Result :=
  let a := readReg s x
  .next (flagThenResult x (a <<< 1) (highBit a) s)

/-- CXNN `RND Vx, nn`: NN and one drawn byte, a free value (R151, notes/assumptions/2.md). -/
def execRnd (x : Reg) (nn : Byte) (s : State) : Result :=
  .next (writeReg x (nn &&& Config.randomByte s.draws) (s.setDraws (s.draws + 1)))

end Sys2Proof.Machine
end

