-- ==== Sys2Proof/Machine/Operands.lean ====
section
/-! DEFINITION. The operand forms (spec/30_encoding.md R93): a register operand is read by `readReg`; the rest is
here. -/

namespace Sys2Proof.Machine

/-- NNN as a 16-bit address, zero-extended (R93). -/
def absAddress (nnn : Addr12) : Word := nnn.setWidth 16

/-- NNN + V[0], not reduced: 16 bits lose nothing of it (R123). -/
def indexedAddress (nnn : Addr12) (v0 : Byte) : Word := BitVec.ofNat 16 (nnn.toNat + v0.toNat)

/-- The effective address `I + k`, an integer that is neither wrapped nor masked (R64, R166). -/
def effectiveAddress (s : State) (k : Nat) : Nat := s.index.toNat + k

/-- The glyph address `a * 5` of the whole byte `a` (R162). -/
def fontAddress (a : Byte) : Word := BitVec.ofNat 16 (a.toNat * 5)

/-- The hundreds, tens and ones digits of a byte, most significant first (R163). -/
def bcdDigits (a : Byte) : List Byte :=
  [BitVec.ofNat 8 (a.toNat / 100), BitVec.ofNat 8 (a.toNat / 10 % 10), BitVec.ofNat 8 (a.toNat % 10)]

/-- A byte as a key number, none when it exceeds 0xF (R190). -/
def keyNumber (a : Byte) : Option Key :=
  if h : a.toNat < 16 then some ⟨a.toNat, h⟩ else none

/-- A key number as a byte, zero-extended (R193). -/
def keyByte (k : Key) : Byte := BitVec.ofNat 8 k.val

end Sys2Proof.Machine
end

