-- ==== Sys2Proof/Machine/Control.lean ====
section
/-! DEFINITION. Control flow (spec/40_control_flow.md). On entry pc holds the instruction's address plus 2. -/

namespace Sys2Proof.Machine

/-- 00EE `RET` (R120). -/
def execRet (s : State) : Result := orRaise (popReturn s) .next

/-- 1NNN `JP nnn` (R121). -/
def execJp (nnn : Addr12) (s : State) : Result := .next (s.setPc (absAddress nnn))

/-- 2NNN `CALL nnn`: the pushed value is the advanced pc (R104, R122). -/
def execCall (nnn : Addr12) (s : State) : Result :=
  orRaise (pushReturn stackLimit s.pc s) fun t => .next (t.setPc (absAddress nnn))

/-- BNNN `JP V0, nnn` (R123). -/
def execJpV0 (nnn : Addr12) (s : State) : Result := .next (s.setPc (indexedAddress nnn (readReg s 0)))

/-- 3XNN `SE Vx, nn` (R124). -/
def execSeI (x : Reg) (nn : Byte) (s : State) : Result := .next (skipIf (readReg s x == nn) s)

/-- 4XNN `SNE Vx, nn` (R125). -/
def execSneI (x : Reg) (nn : Byte) (s : State) : Result := .next (skipIf (readReg s x != nn) s)

/-- 5XY0 `SE Vx, Vy` (R126). -/
def execSeR (x y : Reg) (s : State) : Result := .next (skipIf (readReg s x == readReg s y) s)

/-- 9XY0 `SNE Vx, Vy` (R127). -/
def execSneR (x y : Reg) (s : State) : Result := .next (skipIf (readReg s x != readReg s y) s)

end Sys2Proof.Machine
end

