-- ==== Sys2Proof/Machine/Display.lean ====
section
/-! DEFINITION. The framebuffer's operations and the display instructions (spec/43_display.md). -/

namespace Sys2Proof.Machine

/-- `clear()`: every pixel 0 (R181). -/
def clearPixels : Framebuffer := Vector.replicate 32 (Vector.replicate 64 false)

/-- `get_pixel(x, y)` (R181). -/
def getPixel (fb : Framebuffer) (x : Fin 64) (y : Fin 32) : Bool := fb[y][x]

/-- `set_pixel(x, y, bit)`: XOR the bit in; true when the pixel changed (R181). -/
def setPixel (fb : Framebuffer) (x : Fin 64) (y : Fin 32) (bit : Bool) : Framebuffer × Bool :=
  let old := getPixel fb x y
  let new := old ^^ bit
  (fb.set y (fb[y].set x new), old != new)

/-- Column `c` of a sprite row: bit 7 is the leftmost pixel (R182, decision D4; notes/assumptions/8.md). PRESUMED. -/
def spriteBit (row : Byte) (c : Nat) : Bool := row.getLsbD (7 - c)

/-- A column, wrapped modulo 64 by the interpreter (R182). -/
def wrapX (n : Nat) : Fin 64 := Fin.ofNat 64 n

/-- A row, wrapped modulo 32 by the interpreter (R182). -/
def wrapY (n : Nat) : Fin 32 := Fin.ofNat 32 n

/-- XOR `row`'s columns `c, c+1, …, c + k - 1` into the line `y`, and remember whether any pixel changed (R182). -/
def drawColumns (row : Byte) (x0 : Nat) (y : Fin 32) : Nat → Nat → Framebuffer × Bool → Framebuffer × Bool
  | _, 0, acc => acc
  | c, k + 1, acc =>
    let p := setPixel acc.1 (wrapX (x0 + c)) y (spriteBit row c)
    drawColumns row x0 y (c + 1) k (p.1, acc.2 || p.2)

/-- XOR the sprite rows from line `y0` downward; each row has eight columns (R182). -/
def drawRows (x0 : Nat) : Nat → List Byte → Framebuffer × Bool → Framebuffer × Bool
  | _, [], acc => acc
  | y, row :: rows, acc => drawRows x0 (y + 1) rows (drawColumns row x0 (wrapY y) 0 8 acc)

/-- 00E0 `CLS` (R180). -/
def execCls (s : State) : Result := .next (s.setFb clearPixels)

/-- DXYN `DRW Vx, Vy, n`: coordinates and sprite are sampled first, VF is written once at the end (R182). -/
def execDrw (x y : Reg) (n : Nat) (s : State) : Result :=
  let x0 := (readReg s x).toNat % 64
  let y0 := (readReg s y).toNat % 32
  orRaise (readBlock s.mem (effectiveAddress s 0) n) fun rows =>
    let drawn := drawRows x0 y0 rows (s.fb, false)
    .next (writeFlag drawn.2 (s.setFb drawn.1))

end Sys2Proof.Machine
end

