-- ==== Sys2Proof/Machine/Index.lean ====
section
/-! DEFINITION. Index register and memory instructions (spec/42_index_memory.md). I is the base of every data access
and only ANNN, FX1E and FX29 write it (R24, R166). -/

namespace Sys2Proof.Machine

/-- ANNN `LD I, nnn` (R160). -/
def execLdIdx (nnn : Addr12) (s : State) : Result := .next (s.setIndex (absAddress nnn))

/-- FX1E `ADD I, Vx`: VF = overflow of 12 bits, then I = sum mod 0x1000 (R161). -/
def execAddIdx (x : Reg) (s : State) : Result :=
  let i := s.index
  let a := readReg s x
  .next ((writeFlag (indexOverflow i a) s).setIndex (BitVec.ofNat 16 ((i.toNat + a.toNat) % 0x1000)))

/-- FX29 `LD F, Vx` (R162). -/
def execLdF (x : Reg) (s : State) : Result := .next (s.setIndex (fontAddress (readReg s x)))

/-- Store bytes from address I upward, all or none (R166, R222). -/
def storeAtIndex (bs : List Byte) (s : State) : Result :=
  orRaise (writeBlock s.mem (effectiveAddress s 0) bs) fun m => .next (s.setMem m)

/-- FX33 `LD B, Vx` (R163). -/
def execLdB (x : Reg) (s : State) : Result := storeAtIndex (bcdDigits (readReg s x)) s

/-- FX55 `LD [I], Vx` (R164). -/
def execStRegs (x : Reg) (s : State) : Result := storeAtIndex (regsUpTo s x) s

/-- FX65 `LD Vx, [I]` (R165). -/
def execLdRegs (x : Reg) (s : State) : Result :=
  orRaise (readBlock s.mem (effectiveAddress s 0) (x.val + 1)) fun bs => .next (s.setV (writeRegsFrom s.v 0 bs))

end Sys2Proof.Machine
end

