-- ==== Sys2Proof/Machine/Keypad.lean ====
section
/-! DEFINITION. Keypad and timer instructions, the keypad's queries and the halted step (spec/44_keypad_timers.md,
spec/60_exceptions.md R226, R232). -/

namespace Sys2Proof.Machine

/-- `is_pressed(k)` (R232). -/
def isPressed (s : State) (k : Key) : Bool := s.keys[k]

/-- `poll_any_pressed()`: the lowest-numbered pressed key, or none (R232). -/
def pollAnyPressed (s : State) : Option Key := (List.finRange 16).find? (fun k => isPressed s k)

/-- EX9E and EXA1 when V[X] is no key number, under each KEY_RANGE_POLICY (R190, R191, decision D7). `want` is true
for EX9E, which skips on a pressed key. -/
def keyOutOfRange (p : Config.KeyRangePolicy) (want : Bool) (a : Byte) (s : State) : Result :=
  match p with
  | .fault => raise (.badKeyIndex a)
  | .mask4 => .next (skipIf (isPressed s (Fin.ofNat 16 a.toNat) == want) s)
  | .notPressed => .next (skipIf (false == want) s)

/-- Skip when key V[X] is in the wanted state (R190, R191). -/
def keySkip (p : Config.KeyRangePolicy) (want : Bool) (x : Reg) (s : State) : Result :=
  let a := readReg s x
  match keyNumber a with
  | some k => .next (skipIf (isPressed s k == want) s)
  | none => keyOutOfRange p want a s

/-- EX9E `SKP Vx` (R190). -/
def execSkp (x : Reg) (s : State) : Result := keySkip keyRangePolicy true x s

/-- EXA1 `SKNP Vx` (R191). -/
def execSknp (x : Reg) (s : State) : Result := keySkip keyRangePolicy false x s

/-- FX07 `LD Vx, DT` (R194). -/
def execLdVxDt (x : Reg) (s : State) : Result := .next (writeReg x s.dt s)

/-- FX0A `LD Vx, K`, the executing step: the keys are not looked at (R192). -/
def execLdVxK (x : Reg) (s : State) : Result := .next ((s.setWaitReg x).setHalted true)

/-- FX15 `LD DT, Vx` (R195). -/
def execLdDtVx (x : Reg) (s : State) : Result := .next (s.setDt (readReg s x))

/-- FX18 `LD ST, Vx` (R196). -/
def execLdStVx (x : Reg) (s : State) : Result := .next (s.setSt (readReg s x))

/-- A step taken while halted: no fetch, pc unchanged; a pressed key ends the wait (R101 step 1, R193). -/
def haltedStep (s : State) : State :=
  match pollAnyPressed s with
  | some k => (writeReg s.waitReg (keyByte k) s).setHalted false
  | none => s

end Sys2Proof.Machine
end

