-- ==== Sys2Proof/Machine/Cycle.lean ====
section
/-! DEFINITION. The execution cycle `execute_one()` (spec/30_encoding.md R101), the host's events between CPU steps
(spec/60_exceptions.md R219, R226), and what a fault leaves (R222). -/

namespace Sys2Proof.Machine

/-! ### Events (R219) -/

/-- `tick_delay()` and `tick_sound()` on one timer: minus 1 while positive (R226). -/
def tickTimer (t : Byte) : Byte := if t = 0 then 0 else t - 1

/-- One event's effect (R219, R226, R231). -/
def deliver (e : HostEvent) (s : State) : State :=
  match e with
  | .tick => (s.setDt (tickTimer s.dt)).setSt (tickTimer s.st)
  | .press k => s.setKeys (s.keys.set k true)
  | .release k => s.setKeys (s.keys.set k false)

/-- Events in the order they arrive. -/
def deliverAll : List HostEvent → State → State
  | [], s => s
  | e :: es, s => deliverAll es (deliver e s)

/-- What the host delivers before the coming CPU step: the schedule's first list, which is then gone. An exhausted
schedule delivers nothing (R229; notes/assumptions/1.md). -/
def deliverDue (s : State) : State :=
  match s.schedule with
  | [] => s
  | es :: later => deliverAll es (s.setSchedule later)

/-- REF_LOOP, the reference schedule: one TICK after each of the first `n` CPU steps (R229). -/
def refLoop (n : Nat) : List (List HostEvent) := [] :: List.replicate n [.tick]

/-! ### The CPU step (R101) -/

/-- Fetch the 16-bit instruction at pc through two checked reads, the lower address first (R65, R66). -/
def fetch (s : State) : Except Fault Word :=
  match memRead s.mem s.pc.toNat with
  | .error k => .error k
  | .ok hi =>
    match memRead s.mem (s.pc.toNat + 1) with
    | .error k => .error k
    | .ok lo => .ok (wordOfBytes hi lo)

/-- The state an instruction begins in: pc past it, no diagnostic yet (R101 step 2, R104). -/
def beginInstr (s : State) : State := (advancePc s).setDiag none

/-- An unknown opcode: nothing but the advance of pc, and the report (R98, R212). -/
def reportUnknown (op : Word) (s : State) : State := (beginInstr s).setDiag (some (.unknownOpcode op))

/-- One call of `execute_one()` on a state with no fault recorded (R101). -/
def cpuStep (s : State) : Result :=
  if s.halted then .next ((haltedStep s).setDiag none)
  else
    orRaise (fetch s) fun op =>
      match decode op with
      | .instr i => exec i (beginInstr s)
      | .unknownOpcode _ => .next (reportUnknown op s)

/-- One step of the machine: none after a recorded fault (R223); else the events that are due, then a CPU step
(R219, R220). -/
def takeStep (s : State) : Result :=
  match s.fault with
  | some k => raise k
  | none => cpuStep (deliverDue s)

/-- What a CPU step that faults leaves: pc where it was after a fetch fault, past the instruction after the
instruction's own fault, none of its writes, and the mark set (R222, R42). -/
def faulted (k : Fault) (s : State) : State :=
  match fetch s with
  | .error _ => recordFault k (s.setDiag none)
  | .ok _ => recordFault k (beginInstr s)

/-- What the machine holds after one step, whatever its outcome: what the host may still read (R222, R223). -/
def afterStep (s : State) : State :=
  match s.fault with
  | some _ => s
  | none =>
    match cpuStep (deliverDue s) with
    | .next t => t
    | .fault k => faulted k (deliverDue s)
    | .refused _ => deliverDue s

/-! ### Placing an instruction where the next step fetches it -/

/-- The address of the next fetch; where no fetch is possible at pc (pc > 4094), the reset entry point
(notes/assumptions/27.md). -/
def fetchAddress (s : State) : Nat := if s.pc.toNat + 1 < Config.memSize then s.pc.toNat else Config.romBase

/-- The state with a word stored, high byte first, where the next step fetches, and able to fetch it: not halted, not
faulted. -/
def placeWord (op : Word) (s : State) : State :=
  let a := fetchAddress s
  let m := Memory.poke (Memory.poke s.mem a (highByte op)) (a + 1) (lowByte op)
  (((s.setMem m).setPc (BitVec.ofNat 16 a)).setHalted false).setFault none

end Sys2Proof.Machine
end

