-- ==== Sys2Proof/Machine/Step.lean ====
section
/-! DEFINITION. The machine's step, and the host's way to put an instruction where the step fetches it. -/

namespace Sys2Proof.Machine

/-- One step (`takeStep`, Machine/Cycle.lean). -/
def step (s : State) : Host.Outcome State Fault Refusal := takeStep s

/-- `s` with a table word stored where the next step fetches, so that the very next step runs it (`placeWord`;
notes/assumptions/26.md, 27.md). -/
def State.withFetchWord (s : State) (nbits w : Nat) : State := placeWord (wordOfTable nbits w) s

end Sys2Proof.Machine
end

