-- ==== Sys2Proof/Machine/Session.lean ====
section
/-! DEFINITION. The host's set-up and its reads (spec/20_memory.md R75, R76; spec/60_exceptions.md R230, R234, R236;
spec/70_reset_and_hazards.md R250, R252). No step calls these. -/

namespace Sys2Proof.Machine

/-- `load_rom(bytes)`: verbatim at 0x200, or RomTooLarge (R75, R76). -/
def loadRom (rom : List Byte) (s : State) : Result :=
  if romWellFormed rom then .next (s.setMem (Memory.pokeBytes s.mem Config.romBase rom))
  else .refused (.romTooLarge rom.length)

/-- The launch state of a ROM: construction, then the load (R250); none for a ROM that is too large (R215). -/
def launch (rom : List Byte) : Result := loadRom rom State.reset

/-- The spec's number of a refused load (R210, decision D10). -/
def romTooLargeCode : Nat := 5

/-- `is_halted()` (R234). -/
def isHalted (s : State) : Bool := s.halted

/-- `snapshot_registers()`: the sixteen V registers by number (R234). -/
def snapshotRegisters (s : State) : List (Reg × Byte) := (List.finRange 16).map fun x => (x, readReg s x)

/-- `iter_set_pixels()`: the lit pixels (x, y). The list stands for a set: the spec fixes no order (R181, decision D24,
notes/assumptions/24.md). -/
def litPixels (fb : Framebuffer) : List (Fin 64 × Fin 32) :=
  (List.finRange 32).flatMap fun y => ((List.finRange 64).filter (fun x => getPixel fb x y)).map fun x => (x, y)

end Sys2Proof.Machine
end

