-- ==== Sys2Proof/Safety.lean ====
section
/-! DEFINITION. What counts as a safe run, in the terms the claims use. -/

namespace Sys2Proof.Machine

/-- `n` steps from `s` end in `t`: no fault and no refusal on the way. -/
def Reaches (n : Nat) (s t : State) : Prop := Host.Core.run Sys2Proof.core n s = .next t

/-- A safe run of `n` steps: none of them faults (R223: a faulted state is never a successful end). -/
def SafeRun (n : Nat) (s : State) : Prop := ∃ t, Reaches n s t

/-- A run that also reports no unknown opcode: decision D17's mark as a property of the run (R212). -/
def QuietRun (n : Nat) (s : State) : Prop := ∀ k, 0 < k → k ≤ n → ∃ t, Reaches k s t ∧ t.diag = none

/-- END_OF_RUN by the conventional choice: a jump to itself at pc, not halted, not faulted (R262, decision D14). -/
def AtEnd (s : State) : Prop :=
  s.halted = false ∧ s.fault = none ∧ ∃ nnn : Addr12, s.pc = absAddress nnn ∧ fetch s = .ok (encode (.jp nnn))

/-- The bounds that follow from the rules (R41), and memory's canonical form. -/
structure Bounded (s : State) : Prop where
  /-- R41(a) -/
  index_le : s.index.toNat ≤ 0xFFF
  /-- R41(b) -/
  pc_le : s.pc.toNat ≤ 0x10FE
  /-- R41(c) -/
  stack_entries : ∀ e ∈ s.stack, 2 ≤ e.toNat ∧ e.toNat ≤ 4096
  /-- R41(d) -/
  stack_length : s.stack.length ≤ stackLimit
  /-- the list that holds memory is canonical -/
  mem_wf : Memory.wf s.mem = true

end Sys2Proof.Machine
end

