-- ==== Sys2Proof/Certificates/Slice0/Obligations.lean ====
section
/-! DEFINITION. The statements for the provers, and the few words they are written in. Nothing is proved here.
In a statement about `exec`, pc already holds the instruction's address plus 2 (spec/00_scope.md R14). -/

namespace Sys2Proof.Claims

open Sys2Proof.Machine

/-! ### Words of the statements -/

/-- V[r] as a number (R11: arithmetic of the rules is over the integers). -/
abbrev reg (s : State) (r : Reg) : Nat := (readReg s r).toNat

/-- I as a number. -/
abbrev idx (s : State) : Nat := s.index.toNat

/-- Every register outside the list is unchanged. -/
def RegsKept (changed : List Reg) (s t : State) : Prop := ∀ r, r ∉ changed → readReg t r = readReg s r

/-- Every byte of memory reads as before. -/
def MemKept (s t : State) : Prop := ∀ a, memRead t.mem a = memRead s.mem a

/-- Every byte outside the `n` bytes from `a` reads as before. -/
def MemKeptOutside (a n : Nat) (s t : State) : Prop :=
  ∀ b, b < a ∨ a + n ≤ b → memRead t.mem b = memRead s.mem b

/-- Only the listed registers may differ: the other registers, every byte of memory and every other piece of state
are unchanged, pc among them. -/
def OnlyRegs (changed : List Reg) (s t : State) : Prop := RegsKept changed s t ∧ MemKept s t ∧ t = s.setV t.v

/-- Only pc may differ. -/
def OnlyPc (s t : State) : Prop := RegsKept [] s t ∧ MemKept s t ∧ t = s.setPc t.pc

/-- Only I may differ. -/
def OnlyIndex (s t : State) : Prop := RegsKept [] s t ∧ MemKept s t ∧ t = s.setIndex t.index

/-- Only the `n` bytes of memory from `a` may differ. -/
def OnlyBytes (a n : Nat) (s t : State) : Prop := RegsKept [] s t ∧ MemKeptOutside a n s t ∧ t = s.setMem t.mem

/-- `base | X << 8 | Y << 4`, as the rules write it. -/
def wordR (base : Nat) (x y : Reg) : Word :=
  BitVec.ofNat 16 base ||| BitVec.ofNat 16 x.val <<< 8 ||| BitVec.ofNat 16 y.val <<< 4

/-- `base | X << 8 | NN`. -/
def wordI (base : Nat) (x : Reg) (nn : Byte) : Word :=
  BitVec.ofNat 16 base ||| BitVec.ofNat 16 x.val <<< 8 ||| BitVec.ofNat 16 nn.toNat

/-- `base | NNN`. -/
def wordA (base : Nat) (nnn : Addr12) : Word := BitVec.ofNat 16 base ||| BitVec.ofNat 16 nnn.toNat

/-- `base | X << 8`. -/
def wordF (base : Nat) (x : Reg) : Word := BitVec.ofNat 16 base ||| BitVec.ofNat 16 x.val <<< 8

/-- What a key's state is after events: its last press or release decides (R219, R231). -/
def keyAfter (k : Key) (old : Bool) (es : List HostEvent) : Bool :=
  es.foldl (fun b e => match e with
    | .tick => b
    | .press j => if j = k then true else b
    | .release j => if j = k then false else b) old

/-- The fault that the rules give an instruction on a state, if any: the "raised by" column of R210. The bound 16 is
the model's STACK_LIMIT (log 9), BadKeyIndex the model's KEY_RANGE_POLICY (log 11). -/
def faultOf (i : Instr) (s : State) : Option Fault :=
  match i with
  | .ret => if s.stack = [] then some (.stackUnderflow (s.pc - 2)) else none
  | .call _ => if 16 ≤ s.stack.length then some (.stackOverflow (s.pc - 2)) else none
  | .skp x => if 15 < reg s x then some (.badKeyIndex (readReg s x)) else none
  | .sknp x => if 15 < reg s x then some (.badKeyIndex (readReg s x)) else none
  | .ldB _ => if 4095 < idx s + 2 then some (.outOfBounds (max (idx s) 4096)) else none
  | .stRegs x => if 4095 < idx s + x.val then some (.outOfBounds (max (idx s) 4096)) else none
  | .ldRegs x => if 4095 < idx s + x.val then some (.outOfBounds (max (idx s) 4096)) else none
  | .drw _ _ n => if 0 < n ∧ 4095 < idx s + n - 1 then some (.outOfBounds (max (idx s) 4096)) else none
  | .cls | .jp _ | .seI _ _ | .sneI _ _ | .seR _ _ | .ldI _ _ | .addI _ _ | .ldR _ _ | .orR _ _ | .andR _ _
  | .xorR _ _ | .addR _ _ | .sub _ _ | .shr _ _ | .subn _ _ | .shl _ _ | .sneR _ _ | .ldIdx _ | .jpV0 _ | .rnd _ _
  | .ldVxDt _ | .ldVxK _ | .ldDtVx _ | .ldStVx _ | .addIdx _ | .ldF _ => none

/-- The V registers an instruction may write: its destination X, V[0] to V[X] for FX65, and VF for the seven
instructions of R22. -/
def destinations : Instr → List Reg
  | .ldI x _ | .addI x _ | .ldR x _ | .orR x _ | .andR x _ | .xorR x _ | .rnd x _ | .ldVxDt x => [x]
  | .addR x _ | .sub x _ | .shr x _ | .subn x _ | .shl x _ => [x, 15]
  | .addIdx _ | .drw _ _ _ => [15]
  | .ldRegs x => (List.finRange 16).filter (fun k => k ≤ x)
  | .cls | .ret | .jp _ | .call _ | .seI _ _ | .sneI _ _ | .seR _ _ | .sneR _ _ | .ldIdx _ | .jpV0 _ | .skp _
  | .sknp _ | .ldVxK _ | .ldDtVx _ | .ldStVx _ | .ldF _ | .ldB _ | .stRegs _ => []

/-- How an instruction leaves pc (R23), `before` being the advanced pc. -/
def pcLeft (i : Instr) (s t : State) : Prop :=
  match i with
  | .jp nnn | .call nnn => t.pc.toNat = nnn.toNat
  | .jpV0 nnn => t.pc.toNat = nnn.toNat + reg s 0
  | .ret => s.stack.head? = some t.pc
  | .seI x nn => t.pc = if readReg s x = nn then s.pc + 2 else s.pc
  | .sneI x nn => t.pc = if readReg s x ≠ nn then s.pc + 2 else s.pc
  | .seR x y => t.pc = if readReg s x = readReg s y then s.pc + 2 else s.pc
  | .sneR x y => t.pc = if readReg s x ≠ readReg s y then s.pc + 2 else s.pc
  | .skp _ | .sknp _ => t.pc = s.pc + 2 ∨ t.pc = s.pc
  | .cls | .ldI _ _ | .addI _ _ | .ldR _ _ | .orR _ _ | .andR _ _ | .xorR _ _ | .addR _ _ | .sub _ _ | .shr _ _
  | .subn _ _ | .shl _ _ | .ldIdx _ | .rnd _ _ | .drw _ _ _ | .ldVxDt _ | .ldVxK _ | .ldDtVx _ | .ldStVx _
  | .addIdx _ | .ldF _ | .ldB _ | .stRegs _ | .ldRegs _ => t.pc = s.pc

/-- Pixel (px, py) lies under a set bit of the sprite of `DXYN`: row r is the byte at I + r, bit 7 the leftmost column
(R182, decision D4, log 8), both coordinates wrapped. -/
def underSprite (s : State) (x y : Reg) (n : Nat) (px : Fin 64) (py : Fin 32) : Prop :=
  ∃ r c b, r < n ∧ c < 8 ∧ memRead s.mem (idx s + r) = .ok b ∧ b.getLsbD (7 - c) = true ∧
    px.val = (reg s x % 64 + c) % 64 ∧ py.val = (reg s y % 32 + r) % 32

/-- The bytes of a sprite lie in memory (R182). -/
def spriteFits (s : State) (n : Nat) : Prop := n = 0 ∨ idx s + n ≤ 4096

/-- Two results agree on everything but the framebuffer. -/
def SameButFb : Result → Result → Prop
  | .next t, .next u => ∃ fb, u = t.setFb fb
  | .fault k, .fault l => k = l
  | .refused k, .refused l => k = l
  | .next _, .fault _ | .next _, .refused _ | .fault _, .next _ | .fault _, .refused _ | .refused _, .next _
  | .refused _, .fault _ => False

/-- Two results agree on everything but the sound timer. -/
def SameButSt : Result → Result → Prop
  | .next t, .next u => ∃ b, u = t.setSt b
  | .fault k, .fault l => k = l
  | .refused k, .refused l => k = l
  | .next _, .fault _ | .next _, .refused _ | .fault _, .next _ | .fault _, .refused _ | .refused _, .next _
  | .refused _, .fault _ => False

end Sys2Proof.Claims

open Sys2Proof Sys2Proof.Machine Sys2Proof.Claims

/-! ### Reset, load, invariants -/

/-- The table of R40: pc and memory are the document's; the zeros of V, I, DT, ST are decision D1 (log 5), the rest of
the state decision D2 (log 6), the font bytes the model's parameter FONT (log 7). -/
def Obligations.ResetStateMatchesTable : Prop :=
  State.reset.pc = 0x200 ∧
  (∀ a, 80 ≤ a → a ≤ 4095 → memRead State.reset.mem a = .ok 0) ∧
  (∀ a, a < 80 → ∃ h : a < font.length, memRead State.reset.mem a = .ok font[a]) ∧
  (∀ x, readReg State.reset x = 0) ∧ State.reset.index = 0 ∧ State.reset.dt = 0 ∧ State.reset.st = 0 ∧
  State.reset.stack = [] ∧ State.reset.halted = false ∧ State.reset.waitReg = 0 ∧
  (∀ x y, getPixel State.reset.fb x y = false) ∧ (∀ k, isPressed State.reset k = false) ∧
  State.reset.fault = none

/-- A ROM of at most 3584 bytes is loaded verbatim at 0x200 over the reset state, a longer one is refused and no state
results; the empty ROM is accepted and its first fetch reads 0x0000, an unknown opcode (R75, R76). That the refusal
carries the length is decision D10 (log 14), that the failure is a refusal of the load the model's reading of R215
(log 35). -/
def Obligations.LaunchLoadsTheRomOrRefuses : Prop :=
  (∀ rom : List Byte, rom.length ≤ 3584 →
    ∃ t, launch rom = .next t ∧
      (∀ k (h : k < rom.length), memRead t.mem (0x200 + k) = .ok rom[k]) ∧
      MemKeptOutside 0x200 rom.length State.reset t ∧ t = State.reset.setMem t.mem) ∧
  (∀ rom : List Byte, 3584 < rom.length → launch rom = .refused (.romTooLarge rom.length)) ∧
  (∃ t, launch [] = .next t ∧ fetch t = .ok 0x0000#16 ∧ decode 0x0000#16 = .unknownOpcode 0x0000#16)

/-- The bounds of R41 and the canonical memory hold at reset. -/
def Obligations.ResetIsBounded : Prop := Bounded State.reset

/-- R41, a derived rule of the spec: from any bounded state, whatever the schedule of events, a step leaves a bounded
state (I ≤ 0xFFF, pc ≤ 0x10FE, stack entries in 2..4096, at most STACK_LIMIT of them, canonical memory). -/
def Obligations.StepKeepsBounded : Prop := ∀ s t, Bounded s → step s = .next t → Bounded t

/-- Every run of every ROM under every schedule of host events stays bounded (R41). It rests on the reset values of I and
the stack (decisions D1, D2, logs 5, 6), on the bound 16 (decision D5, log 9), on the schedule as data (decision D11,
log 1) and on the model's form of memory (log 28). -/
def Obligations.EveryRunOfEveryRomStaysBounded : Prop :=
  ∀ (rom : List Byte) (s t : State) (events : List (List HostEvent)) (n : Nat),
    launch rom = .next s → Reaches n (s.setSchedule events) t → Bounded t

/-! ### Memory -/

/-- R63: one byte at one address, checked first; a write is read back and moves no other byte; an access outside is
fatal to the step that makes it. -/
def Obligations.CheckedByteAccess : Prop :=
  ∀ (m : Memory) (a : Nat) (v : Byte) (next : Byte → Result) (next' : Memory → Result),
    (a ≤ 4095 → (∃ b, memRead m a = .ok b) ∧
      ∃ m', memWrite m a v = .ok m' ∧ memRead m' a = .ok v ∧ ∀ b, b ≠ a → memRead m' b = memRead m b) ∧
    (4095 < a → memRead m a = .error (.outOfBounds a) ∧ memWrite m a v = .error (.outOfBounds a) ∧
      orRaise (memRead m a) next = .fault (.outOfBounds a) ∧ orRaise (memWrite m a v) next' = .fault (.outOfBounds a))

/-- Every block write keeps the model's canonical form of memory. -/
def Obligations.BlockWritesKeepCanonicalMemory : Prop :=
  ∀ (m m' : Memory) (a : Nat) (bs : List Byte), Memory.wf m = true → writeBlock m a bs = .ok m' → Memory.wf m' = true

/-- Canonical memories that read alike are the same data (the model's own form; log 28). -/
def Obligations.CanonicalMemoriesThatReadAlikeAreEqual : Prop :=
  ∀ m m' : Memory, Memory.wf m = true → Memory.wf m' = true → (∀ a, memRead m a = memRead m' a) → m = m'

/-- R66: the fetched value is `mem[pc] * 256 + mem[pc+1]`; the byte at the lower address holds the family and X, the
other Y and N, equally NN. -/
def Obligations.FetchIsBigEndian : Prop :=
  ∀ s : State, s.pc.toNat ≤ 4094 →
    ∃ hi lo op, memRead s.mem s.pc.toNat = .ok hi ∧ memRead s.mem (s.pc.toNat + 1) = .ok lo ∧ fetch s = .ok op ∧
      op.toNat = hi.toNat * 256 + lo.toNat ∧
      (fieldFamily op).toNat = hi.toNat / 16 ∧ (fieldX op).val = hi.toNat % 16 ∧
      (fieldY op).val = lo.toNat / 16 ∧ (fieldN op).toNat = lo.toNat % 16 ∧ fieldNN op = lo

/-- A fetch beyond 4094 faults for the first address outside and leaves pc where it was (R65, decision D13, log 16;
R222, decision D9, log 13). -/
def Obligations.FetchBeyondMemoryFaults : Prop :=
  ∀ s : State, s.fault = none → s.halted = false → 4094 < s.pc.toNat →
    step s = .fault (.outOfBounds (if s.pc.toNat = 4095 then 4096 else s.pc.toNat)) ∧
    (afterStep s).pc = s.pc ∧ (afterStep s).fault.isSome = true

/-- A store of V[0] and V[1] over the instruction stream is what the next fetch there sees, V[0] on top (R73, R67). -/
def Obligations.StoredInstructionIsFetched : Prop :=
  ∀ (x : Reg) (s : State), 1 ≤ x.val → idx s + x.val ≤ 4095 →
    ∃ t op, exec (.stRegs x) s = .next t ∧ fetch (t.setPc s.index) = .ok op ∧ op.toNat = reg s 0 * 256 + reg s 1

/-! ### Encoding -/

/-- Every well-formed instruction decodes from its word, and from its two bytes in memory order whatever follows. -/
def Obligations.DecodeOfEncode : Prop :=
  ∀ i : Instr, i.wellFormed = true →
    decode (encode i) = .instr i ∧ ∀ rest, decodeBytes (encodeBytes i ++ rest) = .one (.instr i) rest

/-- Every word that decodes is the encoding of what it decodes to: no bit is dropped, Y of SHR and SHL included
(exactness of decode is decision D8, log 12). -/
def Obligations.EncodeOfDecode : Prop :=
  ∀ (op : Word) (i : Instr), decode op = .instr i → encode i = op ∧ i.wellFormed = true

/-- The decode procedure of R94 and the match and mask table of R96 agree on every word: the instruction's own row, and
no other of the 34, selects it; no row selects an unknown opcode (exactness is decision D8, log 12). -/
def Obligations.DecodeAgreesWithOpcodeMap : Prop :=
  opcodeRows.length = 34 ∧
  ∀ op : Word, match decode op with
    | .instr i => opcodeRows.filter (fun r => r.selects op) = [opcodeRow i]
    | .unknownOpcode w => w = op ∧ opcodeRows.filter (fun r => r.selects op) = []

/-- The unknown opcodes are those of R97's table (decision D8, log 12). -/
def Obligations.UnknownOpcodesAreTheTable : Prop :=
  ∀ op : Word, decode op = .unknownOpcode op ↔
    (op.toNat / 4096 = 0 ∧ op.toNat ≠ 0x00E0 ∧ op.toNat ≠ 0x00EE) ∨
    (op.toNat / 4096 = 5 ∧ op.toNat % 16 ≠ 0) ∨
    (op.toNat / 4096 = 8 ∧ op.toNat % 16 ∈ [8, 9, 0xA, 0xB, 0xC, 0xD, 0xF]) ∨
    (op.toNat / 4096 = 9 ∧ op.toNat % 16 ≠ 0) ∨
    (op.toNat / 4096 = 0xE ∧ op.toNat % 256 ∉ [0x9E, 0xA1]) ∨
    (op.toNat / 4096 = 0xF ∧ op.toNat % 256 ∉ [0x07, 0x0A, 0x15, 0x18, 0x1E, 0x29, 0x33, 0x55, 0x65])

/-- Words written out from the spec's encodings, one or more of each family of the table. -/
def Obligations.SpecWordsDecode : Prop :=
  decode 0x00E0#16 = .instr .cls ∧ decode 0x00EE#16 = .instr .ret ∧ decode 0x1ABC#16 = .instr (.jp 0xABC#12) ∧
  decode 0x3142#16 = .instr (.seI 1 0x42#8) ∧ decode 0x8014#16 = .instr (.addR 0 1) ∧
  decode 0xC10F#16 = .instr (.rnd 1 0x0F#8) ∧ decode 0xA300#16 = .instr (.ldIdx 0x300#12) ∧
  decode 0xF255#16 = .instr (.stRegs 2) ∧ decode 0xD012#16 = .instr (.drw 0 1 2) ∧
  decode 0xE19E#16 = .instr (.skp 1) ∧ decode 0xF10A#16 = .instr (.ldVxK 1) ∧
  decode 0x5121#16 = .unknownOpcode 0x5121#16

/-! ### The cycle, events, faults -/

/-- When the bytes at pc decode to an instruction, the step is `exec` of it on the state with the due events delivered,
pc past the instruction and no diagnostic (R101, R104; the schedule and the diagnostic's field are the model's, logs 1,
3). -/
def Obligations.StepRunsDecodedInstruction : Prop :=
  ∀ (s : State) (hi lo : Byte) (i : Instr), s.fault = none → s.halted = false →
    memRead s.mem s.pc.toNat = .ok hi → memRead s.mem (s.pc.toNat + 1) = .ok lo →
    decode (wordOfBytes hi lo) = .instr i →
    step s = exec i (((deliverDue s).setPc (s.pc + 2)).setDiag none)

/-- An unknown opcode changes nothing but pc, and the step reports it (R98; exactness of decode is decision D8, log 12).
What the events that were due changed before the CPU step is in `deliverDue`; the schedule and the field that holds the
report are the model's (logs 1, 3). -/
def Obligations.UnknownOpcodeOnlyAdvancesPc : Prop :=
  ∀ (s : State) (hi lo : Byte), s.fault = none → s.halted = false →
    memRead s.mem s.pc.toNat = .ok hi → memRead s.mem (s.pc.toNat + 1) = .ok lo →
    decode (wordOfBytes hi lo) = .unknownOpcode (wordOfBytes hi lo) →
    step s = .next (((deliverDue s).setPc (s.pc + 2)).setDiag (some (.unknownOpcode (wordOfBytes hi lo))))

/-- The events due before a step lower each timer by the number of ticks, down to 0, leave each key as its last event
says, and touch nothing else (R219, R226, R231). That they come from a schedule is the model's choice (log 1). -/
def Obligations.DueEventsReachOnlyTimersAndKeys : Prop :=
  ∀ s : State,
    (s.schedule = [] → deliverDue s = s) ∧
    ∀ es later, s.schedule = es :: later →
      (deliverDue s).dt.toNat = s.dt.toNat - es.count .tick ∧
      (deliverDue s).st.toNat = s.st.toNat - es.count .tick ∧
      (∀ k, isPressed (deliverDue s) k = keyAfter k (isPressed s k) es) ∧
      deliverDue s =
        (((s.setDt (deliverDue s).dt).setSt (deliverDue s).st).setKeys (deliverDue s).keys).setSchedule later

/-- R226: TICK lowers each timer by 1 while it is positive, halted or not, and changes nothing else. -/
def Obligations.TickLowersEachTimer : Prop :=
  ∀ s : State,
    (deliver .tick s).dt.toNat = s.dt.toNat - 1 ∧ (deliver .tick s).st.toNat = s.st.toNat - 1 ∧
    deliver .tick s = (s.setDt (deliver .tick s).dt).setSt (deliver .tick s).st

/-- R232: `is_pressed` is the key's level, and the poll answers the lowest-numbered key that is down, or none. -/
def Obligations.PollFindsLowestPressedKey : Prop :=
  ∀ s : State, (∀ k, isPressed s k = s.keys[k]) ∧
    (∀ k, pollAnyPressed s = some k ↔ isPressed s k = true ∧ ∀ j, j < k → isPressed s j = false) ∧
    (pollAnyPressed s = none ↔ ∀ k, isPressed s k = false)

/-- A step taken while halted fetches nothing and leaves pc: with no key down it changes nothing; otherwise the lowest
key goes to V[wait_reg] and the wait ends (R193, decision D21, log 21). -/
def Obligations.HaltedStepWaitsForAKey : Prop :=
  ∀ s : State, s.fault = none → s.halted = true →
    ((∀ k, isPressed (deliverDue s) k = false) → step s = .next ((deliverDue s).setDiag none)) ∧
    ∀ k, isPressed (deliverDue s) k = true → (∀ j, j < k → isPressed (deliverDue s) j = false) →
      ∃ t, step s = .next t ∧ reg t s.waitReg = k.val ∧ RegsKept [s.waitReg] s t ∧ MemKept s t ∧ t.halted = false ∧
        t.pc = s.pc ∧ t = (((deliverDue s).setV t.v).setHalted false).setDiag none

/-- If no key is ever pressed the machine stays halted, however long: pc, registers, framebuffer and memory stay
(R193; the schedule is the model's, log 1). -/
def Obligations.WaitLastsWithoutKeys : Prop :=
  ∀ (n : Nat) (s : State), s.fault = none → s.halted = true → (∀ k, isPressed s k = false) →
    (∀ es ∈ s.schedule, ∀ k, HostEvent.press k ∉ es) →
    ∃ t, Reaches n s t ∧ t.halted = true ∧ t.waitReg = s.waitReg ∧ t.pc = s.pc ∧ t.fb = s.fb ∧ RegsKept [] s t ∧
      MemKept s t

/-- After a recorded fault there is no further step, and nothing changes (R223, decision D22, log 22). -/
def Obligations.FaultedMachineTakesNoStep : Prop :=
  ∀ (s : State) (k : Fault), s.fault = some k → step s = .fault k ∧ afterStep s = s

/-- A step that faults leaves all state but pc as it was, sets the mark, and leaves pc at the faulting address after a
fetch fault, past the instruction otherwise (R222, decision D9, log 13). -/
def Obligations.FaultLeavesNoPartialEffect : Prop :=
  ∀ (s : State) (k : Fault), s.fault = none → step s = .fault k →
    afterStep s =
      (((deliverDue s).setPc (if 4094 < s.pc.toNat then s.pc else s.pc + 2)).setDiag none).setFault (some k)

/-- Every instruction faults exactly where, and with what, the table of faults says (R210, R217, R220). The bound of the
stack and the key policy are the model's parameters (logs 9, 11). -/
def Obligations.InstructionsRaiseExactlyTheirFault : Prop :=
  ∀ (i : Instr) (s : State) (k : Fault), exec i s = .fault k ↔ faultOf i s = some k

/-- No instruction and no step is ever refused. -/
def Obligations.NothingIsRefused : Prop :=
  (∀ (i : Instr) (s : State) (r : Refusal), exec i s ≠ .refused r) ∧ ∀ (s : State) (r : Refusal), step s ≠ .refused r

/-- At a jump to itself every step leaves all as it is but what the events change, and the machine stays there
(R262; that this ends a run is decision D14, log 17). -/
def Obligations.SelfJumpIsAFixedPoint : Prop :=
  ∀ s : State, AtEnd s →
    step s = .next ((deliverDue s).setDiag none) ∧ AtEnd ((deliverDue s).setDiag none)

/-! ### Whole-machine rules -/

/-- R22 and R103 over all instructions: a register that is no destination, and VF outside the seven flag-writing
instructions, is unchanged. -/
def Obligations.RegistersOutsideDestinationsKeep : Prop :=
  ∀ (i : Instr) (s t : State), exec i s = .next t → RegsKept (destinations i) s t

/-- Every instruction leaves pc as R23 says. -/
def Obligations.EveryInstructionLeavesPcAsListed : Prop :=
  ∀ (i : Instr) (s t : State), exec i s = .next t → pcLeft i s t

/-- Each piece of state is written by its own instructions only (R24, R25, R26, R27, R30, R31, R60, R103). -/
def Obligations.StateIsWrittenByItsInstructionsOnly : Prop :=
  ∀ (i : Instr) (s t : State), exec i s = .next t →
    (t.index = s.index ∨ (∃ nnn, i = .ldIdx nnn) ∨ (∃ x, i = .addIdx x) ∨ ∃ x, i = .ldF x) ∧
    (t.dt = s.dt ∨ ∃ x, i = .ldDtVx x) ∧
    (t.st = s.st ∨ ∃ x, i = .ldStVx x) ∧
    (MemKept s t ∨ (∃ x, i = .ldB x) ∨ ∃ x, i = .stRegs x) ∧
    (t.stack = s.stack ∨ i = .ret ∨ ∃ nnn, i = .call nnn) ∧
    ((t.halted = s.halted ∧ t.waitReg = s.waitReg) ∨ ∃ x, i = .ldVxK x) ∧
    (t.fb = s.fb ∨ i = .cls ∨ ∃ x y n, i = .drw x y n) ∧
    (t.draws = s.draws ∨ ∃ x nn, i = .rnd x nn) ∧
    t.keys = s.keys ∧ t.fault = s.fault ∧ t.diag = s.diag ∧ t.schedule = s.schedule

/-- What the framebuffer holds never reaches anything but the framebuffer: a program cannot learn it (R33,
R183(a)). -/
def Obligations.FramebufferNeverFlowsBack : Prop :=
  ∀ (s : State) (fb : Framebuffer), SameButFb (step s) (step (s.setFb fb))

/-- What the sound timer holds never reaches anything but the sound timer: no instruction reads it (R25, R228). -/
def Obligations.SoundTimerNeverFlowsBack : Prop :=
  ∀ (s : State) (b : Byte), SameButSt (step s) (step (s.setSt b))

/-! ### Control flow -/

/-- The targets of JP and JP V0, not range-checked and not reduced; a jump to itself changes nothing but to go back
(R121, R123). That the next fetch faults for a target beyond 4094, and for which address, is R65 with decision D13
(log 16). -/
def Obligations.JumpsSetPc : Prop :=
  ∀ (nnn : Addr12) (s : State),
    decode (wordA 0x1000 nnn) = .instr (.jp nnn) ∧ decode (wordA 0xB000 nnn) = .instr (.jpV0 nnn) ∧
    (∃ t, exec (.jp nnn) s = .next t ∧ t.pc.toNat = nnn.toNat ∧ OnlyPc s t ∧
      (4094 < nnn.toNat → fetch t = .error (.outOfBounds 4096)) ∧
      (s.pc.toNat = nnn.toNat + 2 → t = s.setPc (s.pc - 2))) ∧
    ∃ t, exec (.jpV0 nnn) s = .next t ∧ t.pc.toNat = nnn.toNat + reg s 0 ∧ OnlyPc s t ∧
      (4094 < nnn.toNat + reg s 0 → fetch t = .error (.outOfBounds (max (nnn.toNat + reg s 0) 4096)))

/-- The compare-and-skip instructions, from the instruction's own address (R124 to R127). That the next fetch after a
skip from 4094 faults, and for which address, is R65 with decision D13 (log 16). -/
def Obligations.CompareAndSkip : Prop :=
  ∀ (x y : Reg) (nn : Byte) (addr : Word) (s : State), s.pc = addr + 2 →
    (decode (wordI 0x3000 x nn) = .instr (.seI x nn) ∧ decode (wordI 0x4000 x nn) = .instr (.sneI x nn) ∧
      decode (wordR 0x5000 x y) = .instr (.seR x y) ∧ decode (wordR 0x9000 x y) = .instr (.sneR x y)) ∧
    (∃ t, exec (.seI x nn) s = .next t ∧ t.pc = (if reg s x = nn.toNat then addr + 4 else addr + 2) ∧ OnlyPc s t) ∧
    (∃ t, exec (.sneI x nn) s = .next t ∧ t.pc = (if reg s x = nn.toNat then addr + 2 else addr + 4) ∧ OnlyPc s t) ∧
    (addr.toNat = 4094 → ∀ t : State, t.pc = addr + 4 → fetch t = .error (.outOfBounds 4098)) ∧
    (∃ t, exec (.seR x y) s = .next t ∧ t.pc = (if reg s x = reg s y then addr + 4 else addr + 2) ∧ OnlyPc s t) ∧
    ∃ t, exec (.sneR x y) s = .next t ∧ t.pc = (if reg s x = reg s y then addr + 2 else addr + 4) ∧ OnlyPc s t

/-- R122: below the bound a call pushes the advanced pc and jumps; at the bound it faults. The bound 16 is the model's
STACK_LIMIT (decision D5, log 9). -/
def Obligations.CallPushesReturnAddress : Prop :=
  ∀ (nnn : Addr12) (s : State),
    decode (wordA 0x2000 nnn) = .instr (.call nnn) ∧
    (s.stack.length < 16 → ∃ t, exec (.call nnn) s = .next t ∧ t.stack = s.pc :: s.stack ∧ t.pc.toNat = nnn.toNat ∧
      RegsKept [] s t ∧ MemKept s t ∧ t = (s.setStack t.stack).setPc t.pc) ∧
    (s.stack.length = 16 → exec (.call nnn) s = .fault (.stackOverflow (s.pc - 2)))

/-- R120: a return pops the most recent entry into pc; with an empty stack it faults. -/
def Obligations.ReturnPopsIntoPc : Prop :=
  ∀ s : State,
    decode 0x00EE#16 = .instr .ret ∧
    (∀ top rest, s.stack = top :: rest → ∃ t, exec .ret s = .next t ∧ t.pc = top ∧ t.stack = rest ∧
      RegsKept [] s t ∧ MemKept s t ∧ t = (s.setStack t.stack).setPc t.pc) ∧
    (s.stack = [] → exec .ret s = .fault (.stackUnderflow (s.pc - 2)))

/-- Two steps: a call to an address that holds 00EE comes back to the instruction after the call, with the stack,
registers and memory as before, whatever events arrive (R120, W5). -/
def Obligations.CallThenReturnComesBack : Prop :=
  ∀ (nnn : Addr12) (s : State), s.fault = none → s.halted = false → s.stack.length < 16 →
    fetch s = .ok (encode (.call nnn)) →
    memRead s.mem nnn.toNat = .ok 0x00#8 → memRead s.mem (nnn.toNat + 1) = .ok 0xEE#8 →
    ∃ t u, step s = .next t ∧ step t = .next u ∧ u.pc = s.pc + 2 ∧ u.stack = s.stack ∧ RegsKept [] s u ∧ MemKept s u

/-! ### Load, arithmetic, logic, random -/

/-- The result goes to V[X], modulo 256, and nothing else changes: no flag, no other register (R141 to R146). That
8XY1, 8XY2 and 8XY3 leave VF alone and unlisted effects are none is R103 with decision D18 (log 19). -/
def Obligations.LoadsAndLogicWriteOnlyVx : Prop :=
  ∀ (x y : Reg) (nn : Byte) (s : State),
    (decode (wordI 0x6000 x nn) = .instr (.ldI x nn) ∧ decode (wordI 0x7000 x nn) = .instr (.addI x nn) ∧
      decode (wordR 0x8000 x y) = .instr (.ldR x y) ∧ decode (wordR 0x8001 x y) = .instr (.orR x y) ∧
      decode (wordR 0x8002 x y) = .instr (.andR x y) ∧ decode (wordR 0x8003 x y) = .instr (.xorR x y)) ∧
    (∃ t, exec (.ldI x nn) s = .next t ∧ reg t x = nn.toNat ∧ OnlyRegs [x] s t) ∧
    (∃ t, exec (.addI x nn) s = .next t ∧ reg t x = (reg s x + nn.toNat) % 256 ∧ OnlyRegs [x] s t) ∧
    (∃ t, exec (.ldR x y) s = .next t ∧ reg t x = reg s y ∧ OnlyRegs [x] s t) ∧
    (∃ t, exec (.orR x y) s = .next t ∧ reg t x = reg s x ||| reg s y ∧ OnlyRegs [x] s t) ∧
    (∃ t, exec (.andR x y) s = .next t ∧ reg t x = reg s x &&& reg s y ∧ OnlyRegs [x] s t) ∧
    ∃ t, exec (.xorR x y) s = .next t ∧ reg t x = reg s x ^^^ reg s y ∧ OnlyRegs [x] s t

/-- R147: the sum modulo 256 and the carry. With X = F the carry stays (decision D6, log 10). -/
def Obligations.AddWritesSumThenCarry : Prop :=
  ∀ (x y : Reg) (s : State),
    decode (wordR 0x8004 x y) = .instr (.addR x y) ∧
    ∃ t, exec (.addR x y) s = .next t ∧ OnlyRegs [x, 15] s t ∧
      reg t 15 = (if reg s x + reg s y > 255 then 1 else 0) ∧
      (x ≠ 15 → reg t x = (reg s x + reg s y) % 256)

/-- R148 and R150: the difference modulo 256 and the complement of the borrow. With X = F the difference stays
(decision D6, log 10). -/
def Obligations.SubtractWritesBorrowThenDifference : Prop :=
  ∀ (x y : Reg) (s : State),
    (decode (wordR 0x8005 x y) = .instr (.sub x y) ∧ decode (wordR 0x8007 x y) = .instr (.subn x y)) ∧
    (∃ t, exec (.sub x y) s = .next t ∧ OnlyRegs [x, 15] s t ∧
      (reg t x : Int) = ((reg s x : Int) - reg s y) % 256 ∧
      (x ≠ 15 → reg t 15 = if reg s x ≥ reg s y then 1 else 0)) ∧
    ∃ t, exec (.subn x y) s = .next t ∧ OnlyRegs [x, 15] s t ∧
      (reg t x : Int) = ((reg s y : Int) - reg s x) % 256 ∧
      (x ≠ 15 → reg t 15 = if reg s y ≥ reg s x then 1 else 0)

/-- R149 and R152: shifts of V[X] by one position, the bit shifted out in VF, any Y. With X = F the result stays
(decision D6, log 10). -/
def Obligations.ShiftsMoveOneBitIntoVf : Prop :=
  ∀ (x y : Reg) (s : State),
    (decode (wordR 0x8006 x y) = .instr (.shr x y) ∧ decode (wordR 0x800E x y) = .instr (.shl x y)) ∧
    (∃ t, exec (.shr x y) s = .next t ∧ OnlyRegs [x, 15] s t ∧ reg t x = reg s x / 2 ∧
      (x ≠ 15 → reg t 15 = reg s x % 2)) ∧
    ∃ t, exec (.shl x y) s = .next t ∧ OnlyRegs [x, 15] s t ∧ reg t x = 2 * reg s x % 256 ∧
      (x ≠ 15 → reg t 15 = reg s x / 128)

/-- R151: V[X] is NN and one drawn byte, which is free (decision D15, log 2): whatever it is, V[X] ≤ NN and no bit
outside NN is set; exactly one byte is drawn. -/
def Obligations.RandomIsMaskedByNn : Prop :=
  ∀ (x : Reg) (nn : Byte) (s : State),
    decode (wordI 0xC000 x nn) = .instr (.rnd x nn) ∧
    ∃ t, exec (.rnd x nn) s = .next t ∧ reg t x = nn.toNat &&& (Config.randomByte s.draws).toNat ∧
      reg t x ≤ nn.toNat ∧ readReg t x &&& ~~~nn = 0 ∧ t.draws = s.draws + 1 ∧
      RegsKept [x] s t ∧ MemKept s t ∧ t = (s.setV t.v).setDraws t.draws

/-! ### Index and memory -/

/-- R160 and R162: I takes NNN, or the whole V[X] times 5. -/
def Obligations.IndexLoads : Prop :=
  ∀ (nnn : Addr12) (x : Reg) (s : State),
    (decode (wordA 0xA000 nnn) = .instr (.ldIdx nnn) ∧ decode (wordF 0xF029 x) = .instr (.ldF x)) ∧
    (∃ t, exec (.ldIdx nnn) s = .next t ∧ idx t = nnn.toNat ∧ OnlyIndex s t) ∧
    ∃ t, exec (.ldF x) s = .next t ∧ idx t = reg s x * 5 ∧ OnlyIndex s t

/-- R161: the sum modulo 0x1000 and the overflow of 12 bits, V[X] sampled first (decision D6, log 10). For I above
0xFFF, which no run reaches, the rule is applied as written (log 29). -/
def Obligations.AddToIndexWrapsAt12Bits : Prop :=
  ∀ (x : Reg) (s : State),
    decode (wordF 0xF01E x) = .instr (.addIdx x) ∧
    ∃ t, exec (.addIdx x) s = .next t ∧ idx t = (idx s + reg s x) % 0x1000 ∧
      reg t 15 = (if idx s + reg s x > 0xFFF then 1 else 0) ∧
      RegsKept [15] s t ∧ MemKept s t ∧ t = (s.setV t.v).setIndex t.index

/-- R163: the three decimal digits at I, I + 1, I + 2, or a fault with no effect (decisions D9, D10, logs 13, 14). -/
def Obligations.BcdStoresThreeDigits : Prop :=
  ∀ (x : Reg) (s : State),
    decode (wordF 0xF033 x) = .instr (.ldB x) ∧
    (idx s + 2 ≤ 4095 → ∃ t a b c, exec (.ldB x) s = .next t ∧
      memRead t.mem (effectiveAddress s 0) = .ok a ∧ memRead t.mem (effectiveAddress s 1) = .ok b ∧
      memRead t.mem (effectiveAddress s 2) = .ok c ∧
      a.toNat = reg s x / 100 ∧ b.toNat = reg s x / 10 % 10 ∧ c.toNat = reg s x % 10 ∧
      OnlyBytes (effectiveAddress s 0) 3 s t) ∧
    (4095 < idx s + 2 → exec (.ldB x) s = .fault (.outOfBounds (max (idx s) 4096)))

/-- R164: V[k] goes to I + k for k = 0..X, or a fault with no effect (decisions D9, D10, logs 13, 14). -/
def Obligations.BlockStoreWritesV0ToVx : Prop :=
  ∀ (x : Reg) (s : State),
    decode (wordF 0xF055 x) = .instr (.stRegs x) ∧
    (idx s + x.val ≤ 4095 → ∃ t, exec (.stRegs x) s = .next t ∧
      (∀ k : Reg, k ≤ x → memRead t.mem (effectiveAddress s k.val) = .ok (readReg s k)) ∧
      OnlyBytes (effectiveAddress s 0) (x.val + 1) s t) ∧
    (4095 < idx s + x.val → exec (.stRegs x) s = .fault (.outOfBounds (max (idx s) 4096)))

/-- R165: V[k] receives the byte at I + k for k = 0..X, or a fault with no effect (decisions D9, D10, logs 13, 14). -/
def Obligations.BlockLoadReadsV0ToVx : Prop :=
  ∀ (x : Reg) (s : State),
    decode (wordF 0xF065 x) = .instr (.ldRegs x) ∧
    (idx s + x.val ≤ 4095 → ∃ t, exec (.ldRegs x) s = .next t ∧
      (∀ k : Reg, k ≤ x → memRead s.mem (effectiveAddress s k.val) = .ok (readReg t k)) ∧
      (∀ k : Reg, x < k → readReg t k = readReg s k) ∧ MemKept s t ∧ t = s.setV t.v) ∧
    (4095 < idx s + x.val → exec (.ldRegs x) s = .fault (.outOfBounds (max (idx s) 4096)))

/-- A block load at the same I gives back what a block store put there, whatever the registers held in between
(R71, R164, R165). -/
def Obligations.BlockLoadGivesBackBlockStore : Prop :=
  ∀ (x : Reg) (s : State) (v : Vector Byte 16), idx s + x.val ≤ 4095 →
    ∃ t u, exec (.stRegs x) s = .next t ∧ exec (.ldRegs x) (t.setV v) = .next u ∧
      (∀ k : Reg, k ≤ x → readReg u k = readReg s k) ∧ (∀ k : Reg, x < k → readReg u k = v[k])

/-! ### Display -/

/-- R180: every pixel is 0 afterwards, `iter_set_pixels()` is empty, and nothing else changes. -/
def Obligations.ClearEmptiesTheFramebuffer : Prop :=
  ∀ s : State,
    decode 0x00E0#16 = .instr .cls ∧
    ∃ t, exec .cls s = .next t ∧ (∀ x y, getPixel t.fb x y = false) ∧ litPixels t.fb = [] ∧
      RegsKept [] s t ∧ MemKept s t ∧ t = s.setFb t.fb

/-- `set_pixel` XORs one pixel, leaves the others, and reports a change exactly for the bit 1 (R181). -/
def Obligations.SetPixelXorsOnePixel : Prop :=
  ∀ (fb : Framebuffer) (x px : Fin 64) (y py : Fin 32) (b : Bool),
    getPixel (setPixel fb x y b).1 px py = (if px = x ∧ py = y then getPixel fb px py ^^ b else getPixel fb px py) ∧
    (setPixel fb x y b).2 = (getPixel (setPixel fb x y b).1 x y != getPixel fb x y) ∧ (setPixel fb x y b).2 = b

/-- R182, R183: exactly the pixels under set bits of the sprite are toggled, wrapped at both edges; VF is 1 exactly when
a sprite byte is not zero; nothing else changes; a sprite that leaves memory faults with no effect. The bit order is
decision D4 (log 8), N = 0 decision D25 (log 25), coordinates sampled from the old VF when X = F or Y = F decision D6
(log 10), the fault's effects and payload decisions D9, D10 (logs 13, 14). -/
def Obligations.DrawTogglesExactlyTheSprite : Prop :=
  ∀ (x y : Reg) (n : Nat) (s : State), (Instr.drw x y n).wellFormed = true →
    (spriteFits s n → ∃ t, exec (.drw x y n) s = .next t ∧
      (∀ px py, getPixel t.fb px py = true ↔ ¬ (getPixel s.fb px py = true ↔ underSprite s x y n px py)) ∧
      ((∃ r b, r < n ∧ memRead s.mem (idx s + r) = .ok b ∧ b ≠ 0) → reg t 15 = 1) ∧
      ((∀ r b, r < n → memRead s.mem (idx s + r) = .ok b → b = 0) → reg t 15 = 0) ∧
      RegsKept [15] s t ∧ MemKept s t ∧ t = (s.setV t.v).setFb t.fb) ∧
    (0 < n → 4095 < idx s + n - 1 → exec (.drw x y n) s = .fault (.outOfBounds (max (idx s) 4096)))

/-- Drawing the same sprite at the same place twice restores the framebuffer, with the same VF both times (R183(c)). -/
def Obligations.DrawTwiceRestores : Prop :=
  ∀ (x y : Reg) (n : Nat) (s : State), (Instr.drw x y n).wellFormed = true → x ≠ 15 → y ≠ 15 → spriteFits s n →
    ∃ t u, exec (.drw x y n) s = .next t ∧ exec (.drw x y n) t = .next u ∧ u.fb = s.fb ∧ readReg u 15 = readReg t 15

/-! ### Keypad and timers -/

/-- R190, R191: with V[X] a key number the skip is taken on the key's level; otherwise the fatal BadKeyIndex of the
model's KEY_RANGE_POLICY (decision D7, log 11). -/
def Obligations.KeySkipsReadTheLevel : Prop :=
  ∀ (x : Reg) (s : State),
    (decode (wordF 0xE09E x) = .instr (.skp x) ∧ decode (wordF 0xE0A1 x) = .instr (.sknp x)) ∧
    (∀ k : Key, reg s x = k.val →
      (∃ t, exec (.skp x) s = .next t ∧ t.pc = (if isPressed s k then s.pc + 2 else s.pc) ∧ OnlyPc s t) ∧
      ∃ t, exec (.sknp x) s = .next t ∧ t.pc = (if isPressed s k then s.pc else s.pc + 2) ∧ OnlyPc s t) ∧
    (15 < reg s x → exec (.skp x) s = .fault (.badKeyIndex (readReg s x)) ∧
      exec (.sknp x) s = .fault (.badKeyIndex (readReg s x)))

/-- The three policies of R190 for V[X] > 15, for EX9E (`want` true) and EXA1 (`want` false); for a key number they
agree (decision D7, log 11). -/
def Obligations.KeyRangePoliciesAsListed : Prop :=
  ∀ (want : Bool) (x : Reg) (s : State),
    (15 < reg s x →
      keySkip .fault want x s = .fault (.badKeyIndex (readReg s x)) ∧
      (∀ k : Key, k.val = reg s x % 16 →
        keySkip .mask4 want x s = .next (s.setPc (if isPressed s k = want then s.pc + 2 else s.pc))) ∧
      keySkip .notPressed want x s = .next (s.setPc (if want then s.pc else s.pc + 2))) ∧
    (reg s x ≤ 15 → ∀ p, keySkip p want x s = keySkip .fault want x s)

/-- R192: the executing step of FX0A only notes the register and halts; the keys are not looked at (decision D21,
log 21). -/
def Obligations.WaitForKeyOnlyHalts : Prop :=
  ∀ (x : Reg) (s : State),
    decode (wordF 0xF00A x) = .instr (.ldVxK x) ∧
    ∃ t, exec (.ldVxK x) s = .next t ∧ t.halted = true ∧ t.waitReg = x ∧ t.pc = s.pc ∧ RegsKept [] s t ∧
      MemKept s t ∧ t = (s.setWaitReg x).setHalted true

/-- R194 to R196: the timer registers are read and written whole. -/
def Obligations.TimerRegisterAccess : Prop :=
  ∀ (x : Reg) (s : State),
    (decode (wordF 0xF007 x) = .instr (.ldVxDt x) ∧ decode (wordF 0xF015 x) = .instr (.ldDtVx x) ∧
      decode (wordF 0xF018 x) = .instr (.ldStVx x)) ∧
    (∃ t, exec (.ldVxDt x) s = .next t ∧ reg t x = s.dt.toNat ∧ OnlyRegs [x] s t) ∧
    (∃ t, exec (.ldDtVx x) s = .next t ∧ t.dt.toNat = reg s x ∧ RegsKept [] s t ∧ MemKept s t ∧ t = s.setDt t.dt) ∧
    ∃ t, exec (.ldStVx x) s = .next t ∧ t.st.toNat = reg s x ∧ RegsKept [] s t ∧ MemKept s t ∧ t = s.setSt t.st
end

