-- ==== Sys2Proof/Laws/Decode.lean ====
section
/-! SUPPORT. The fields of an assembled word, format by format: what the decoder's slices read from what the encoder
put there. -/

namespace Sys2Proof

/-- A slice of an OR is the OR of the slices. -/
theorem slice_or (a b : Word) (start len : Nat) :
    (a ||| b).extractLsb' start len = a.extractLsb' start len ||| b.extractLsb' start len := by
  ext i hi; simp

/-! ### The slices of one operand -/

theorem slice_putX (x : Reg) :
    (putX x).extractLsb' 12 4 = 0#4 ∧ (putX x).extractLsb' 8 4 = BitVec.ofFin x ∧ (putX x).extractLsb' 4 4 = 0#4 ∧
    (putX x).extractLsb' 0 4 = 0#4 ∧ (putX x).extractLsb' 0 8 = 0#8 := by
  revert x; decide

theorem slice_putY (y : Reg) :
    (putY y).extractLsb' 12 4 = 0#4 ∧ (putY y).extractLsb' 8 4 = 0#4 ∧ (putY y).extractLsb' 4 4 = BitVec.ofFin y ∧
    (putY y).extractLsb' 0 4 = 0#4 := by
  revert y; decide

theorem slice_byte (nn : Byte) :
    (nn.setWidth 16).extractLsb' 12 4 = 0#4 ∧ (nn.setWidth 16).extractLsb' 8 4 = 0#4 ∧
    (nn.setWidth 16).extractLsb' 0 8 = nn := by
  have hb := nn.isLt
  refine ⟨?_, ?_, ?_⟩ <;> apply BitVec.eq_of_toNat_eq <;>
    simp only [BitVec.extractLsb'_toNat, BitVec.toNat_setWidth, Nat.shiftRight_eq_div_pow, BitVec.toNat_ofNat] <;> omega

theorem slice_address (nnn : Addr12) :
    (nnn.setWidth 16).extractLsb' 12 4 = 0#4 ∧ (nnn.setWidth 16).extractLsb' 0 12 = nnn := by
  have hb := nnn.isLt
  refine ⟨?_, ?_⟩ <;> apply BitVec.eq_of_toNat_eq <;>
    simp only [BitVec.extractLsb'_toNat, BitVec.toNat_setWidth, Nat.shiftRight_eq_div_pow, BitVec.toNat_ofNat] <;> omega

theorem slice_nibble (n : BitVec 4) :
    (n.setWidth 16).extractLsb' 12 4 = 0#4 ∧ (n.setWidth 16).extractLsb' 8 4 = 0#4 ∧
    (n.setWidth 16).extractLsb' 4 4 = 0#4 ∧ (n.setWidth 16).extractLsb' 0 4 = n := by
  revert n; decide

/-! ### The fields of a format -/

/-- Format R: X, Y and the base's own family and function digits. -/
theorem fields_formatR (base : Word) (x y : Reg) (hx : base.extractLsb' 8 4 = 0#4) (hy : base.extractLsb' 4 4 = 0#4) :
    fieldFamily (formatR base x y) = base.extractLsb' 12 4 ∧ fieldX (formatR base x y) = x ∧
    fieldY (formatR base x y) = y ∧ fieldN (formatR base x y) = base.extractLsb' 0 4 := by
  obtain ⟨x1, x2, x3, x4, -⟩ := slice_putX x
  obtain ⟨y1, y2, y3, y4⟩ := slice_putY y
  refine ⟨?_, ?_, ?_, ?_⟩ <;> simp [fieldFamily, fieldX, fieldY, fieldN, formatR, slice_or, *]

/-- Format I: X, NN and the base's own family. -/
theorem fields_formatI (base : Word) (x : Reg) (nn : Byte) (hx : base.extractLsb' 8 4 = 0#4)
    (hn : base.extractLsb' 0 8 = 0#8) :
    fieldFamily (formatI base x nn) = base.extractLsb' 12 4 ∧ fieldX (formatI base x nn) = x ∧
    fieldNN (formatI base x nn) = nn := by
  obtain ⟨x1, x2, -, -, x5⟩ := slice_putX x
  obtain ⟨n1, n2, n3⟩ := slice_byte nn
  refine ⟨?_, ?_, ?_⟩ <;> simp only [fieldFamily, fieldX, fieldNN, formatI, slice_or] <;> simp [*]

/-- Format A: NNN and the base's own family. -/
theorem fields_formatA (base : Word) (nnn : Addr12) (hn : base.extractLsb' 0 12 = 0#12) :
    fieldFamily (formatA base nnn) = base.extractLsb' 12 4 ∧ fieldNNN (formatA base nnn) = nnn := by
  obtain ⟨n1, n2⟩ := slice_address nnn
  refine ⟨?_, ?_⟩ <;> simp only [fieldFamily, fieldNNN, formatA, slice_or, n1, n2, hn] <;> simp

/-- Format F: X and the base's own family and function byte. -/
theorem fields_formatF (base : Word) (x : Reg) (hx : base.extractLsb' 8 4 = 0#4) :
    fieldFamily (formatF base x) = base.extractLsb' 12 4 ∧ fieldX (formatF base x) = x ∧
    fieldNN (formatF base x) = base.extractLsb' 0 8 := by
  obtain ⟨x1, x2, -, -, x5⟩ := slice_putX x
  refine ⟨?_, ?_, ?_⟩ <;> simp [fieldFamily, fieldX, fieldNN, formatF, slice_or, *]

/-- Format D: X, Y, the row count modulo 16 and the base's own family. -/
theorem fields_formatD (base : Word) (x y : Reg) (n : Nat) (hx : base.extractLsb' 8 4 = 0#4)
    (hy : base.extractLsb' 4 4 = 0#4) (hn : base.extractLsb' 0 4 = 0#4) :
    fieldFamily (formatD base x y n) = base.extractLsb' 12 4 ∧ fieldX (formatD base x y n) = x ∧
    fieldY (formatD base x y n) = y ∧ fieldN (formatD base x y n) = BitVec.ofNat 4 n := by
  obtain ⟨x1, x2, x3, x4, -⟩ := slice_putX x
  obtain ⟨y1, y2, y3, y4⟩ := slice_putY y
  obtain ⟨n1, n2, n3, n4⟩ := slice_nibble (BitVec.ofNat 4 n)
  refine ⟨?_, ?_, ?_, ?_⟩ <;> simp only [fieldFamily, fieldX, fieldY, fieldN, formatD, slice_or] <;> simp [*]

/-! ### The fixed bits of a format -/

/-- A mask distributes over OR. -/
theorem or_and_mask (a b m : Word) : (a ||| b) &&& m = (a &&& m) ||| (b &&& m) := by
  ext i hi; simp [Bool.and_or_distrib_right]

theorem putX_mask (x : Reg) : putX x &&& 0xF0FF#16 = 0 ∧ putX x &&& 0xF00F#16 = 0 ∧ putX x &&& 0xF000#16 = 0 := by
  revert x; decide

theorem putY_mask (y : Reg) : putY y &&& 0xF00F#16 = 0 ∧ putY y &&& 0xF000#16 = 0 := by
  revert y; decide

/-- An operand of at most 12 bits has no bit in the family. -/
theorem setWidth_mask {w : Nat} (h : w ≤ 12) (b : BitVec w) : b.setWidth 16 &&& 0xF000#16 = 0 := by
  apply BitVec.eq_of_toNat_eq
  have hb : b.toNat < 2 ^ 12 := lt_of_lt_of_le b.isLt (Nat.pow_le_pow_right (by omega) h)
  have hd : b.toNat &&& 0xF000 = 0 := by
    apply Nat.eq_of_testBit_eq
    intro i
    rw [Nat.testBit_and, Nat.zero_testBit]
    by_cases hi : i < 12
    · have : Nat.testBit 0xF000 i = false := by interval_cases i <;> rfl
      simp [this]
    · have : b.toNat.testBit i = false :=
        Nat.testBit_lt_two_pow (lt_of_lt_of_le hb (Nat.pow_le_pow_right (by omega) (by omega)))
      simp [this]
  simp only [BitVec.toNat_and, BitVec.toNat_setWidth]
  rw [Nat.mod_eq_of_lt (by omega)]
  exact hd

/-! ### Bytes -/

/-- The number a fetched word stands for (R66). -/
theorem toNat_wordOfBytes (hi lo : Byte) : (wordOfBytes hi lo).toNat = hi.toNat * 256 + lo.toNat := by
  have h := lo.isLt
  rw [wordOfBytes, BitVec.toNat_append, Nat.shiftLeft_eq, Nat.mul_comm, ← Nat.two_pow_add_eq_or_of_lt h]

/-- A word laid out high byte first and read back is itself. -/
@[simp] theorem wordOfBytes_split (op : Word) : wordOfBytes (highByte op) (lowByte op) = op := by
  apply BitVec.eq_of_toNat_eq
  have := op.isLt
  rw [toNat_wordOfBytes, highByte, lowByte, BitVec.extractLsb'_toNat, BitVec.extractLsb'_toNat]
  simp only [Nat.shiftRight_eq_div_pow]
  omega

end Sys2Proof
end

