-- ==== Sys2Proof/Laws/Memory.lean ====
section
/-! SUPPORT. What the memory operations do: reads after writes, the canonical form, and what the checked accesses and
the blocks answer. -/

namespace Sys2Proof.Machine

/-! ### Reads after writes -/

theorem Memory.peek_filter_ne (m : Memory) {a b : Nat} (h : b ≠ a) :
    Memory.peek (m.filter (fun c => c.1 != a)) b = Memory.peek m b := by
  induction m with
  | nil => rfl
  | cons c m ih =>
    obtain ⟨d, v⟩ := c
    by_cases hd : d = a
    · have hdb : d ≠ b := fun e => h (e ▸ hd)
      simp [hd, Memory.peek, ih, Ne.symm h]
    · by_cases hdb : d = b <;> simp [hd, hdb, h, Memory.peek, ih]

theorem Memory.peek_filter_self (m : Memory) (a : Nat) :
    Memory.peek (m.filter (fun c => c.1 != a)) a = resetByte a := by
  induction m with
  | nil => rfl
  | cons c m ih =>
    obtain ⟨d, v⟩ := c
    by_cases hd : d = a <;> simp [hd, Memory.peek, ih]

theorem Memory.peek_insert_self (m : Memory) (a : Nat) (v : Byte) (h : ∀ c ∈ m, c.1 ≠ a) :
    Memory.peek (Memory.insert a v m) a = v := by
  induction m with
  | nil => simp [Memory.insert, Memory.peek]
  | cons c m ih =>
    obtain ⟨d, w⟩ := c
    have hd : d ≠ a := h (d, w) (by simp)
    by_cases hlt : a < d
    · simp [Memory.insert, hlt, Memory.peek]
    · simp only [Memory.insert, hlt, if_false, Memory.peek, hd]
      exact ih fun c hc => h c (by simp [hc])

theorem Memory.peek_insert_ne (m : Memory) {a b : Nat} (v : Byte) (h : b ≠ a) :
    Memory.peek (Memory.insert a v m) b = Memory.peek m b := by
  induction m with
  | nil => simp [Memory.insert, Memory.peek, Ne.symm h]
  | cons c m ih =>
    obtain ⟨d, w⟩ := c
    by_cases hlt : a < d
    · simp [Memory.insert, hlt, Memory.peek, Ne.symm h]
    · simp [Memory.insert, hlt, Memory.peek, ih]

/-- A byte just written reads back. -/
@[simp] theorem Memory.peek_poke_self (m : Memory) (a : Nat) (v : Byte) : Memory.peek (Memory.poke m a v) a = v := by
  unfold Memory.poke
  by_cases hv : v = resetByte a
  · simp [hv, Memory.peek_filter_self]
  · simp only [hv, if_false]
    exact Memory.peek_insert_self _ _ _ (by simp)

/-- A write leaves every other byte alone. -/
theorem Memory.peek_poke_ne (m : Memory) {a b : Nat} (v : Byte) (h : b ≠ a) :
    Memory.peek (Memory.poke m a v) b = Memory.peek m b := by
  unfold Memory.poke
  by_cases hv : v = resetByte a
  · simp [hv, Memory.peek_filter_ne m h]
  · simp [hv, Memory.peek_insert_ne _ v h, Memory.peek_filter_ne m h]

theorem Memory.peek_pokeBytes_below (m : Memory) (a b : Nat) (bs : List Byte) (h : b < a) :
    Memory.peek (Memory.pokeBytes m a bs) b = Memory.peek m b := by
  induction bs generalizing m a with
  | nil => rfl
  | cons v bs ih => rw [Memory.pokeBytes, ih _ _ (by omega), Memory.peek_poke_ne _ _ (by omega)]

/-- A block write leaves every byte outside the block alone. -/
theorem Memory.peek_pokeBytes_outside (m : Memory) (a b : Nat) (bs : List Byte) (h : b < a ∨ a + bs.length ≤ b) :
    Memory.peek (Memory.pokeBytes m a bs) b = Memory.peek m b := by
  induction bs generalizing m a with
  | nil => rfl
  | cons v bs ih =>
    simp only [List.length_cons] at h
    rw [Memory.pokeBytes, ih _ _ (by omega), Memory.peek_poke_ne _ _ (by omega)]

/-- The k-th byte of a block write reads back. -/
theorem Memory.peek_pokeBytes_inside (m : Memory) (a k : Nat) (bs : List Byte) (h : k < bs.length) :
    Memory.peek (Memory.pokeBytes m a bs) (a + k) = bs[k] := by
  induction bs generalizing m a k with
  | nil => simp at h
  | cons v bs ih =>
    rw [Memory.pokeBytes]
    cases k with
    | zero => rw [Memory.peek_pokeBytes_below _ _ _ _ (by omega)]; simp
    | succ k =>
      have := ih (Memory.poke m a v) (a + 1) k (by simpa using h)
      rw [show a + (k + 1) = a + 1 + k by omega, this]; simp

/-! ### The canonical form -/

theorem Memory.wf_cons_iff (a : Nat) (v : Byte) (m : Memory) :
    Memory.wf ((a, v) :: m) = true ↔
      a < Config.memSize ∧ v ≠ resetByte a ∧ (∀ c ∈ m, a < c.1) ∧ Memory.wf m = true := by
  simp [Memory.wf, and_assoc]

theorem Memory.wf_filter (m : Memory) (p : Host.Cell → Bool) (h : Memory.wf m = true) :
    Memory.wf (m.filter p) = true := by
  induction m with
  | nil => rfl
  | cons c m ih =>
    obtain ⟨a, v⟩ := c
    obtain ⟨ha, hv, hall, hm⟩ := (Memory.wf_cons_iff a v m).1 h
    by_cases hp : p (a, v) = true
    · rw [List.filter_cons_of_pos hp, Memory.wf_cons_iff]
      exact ⟨ha, hv, fun c hc => hall c (List.mem_filter.1 hc).1, ih hm⟩
    · rw [List.filter_cons_of_neg hp]; exact ih hm

theorem Memory.mem_insert {a : Nat} {v : Byte} {m : Memory} {c : Host.Cell} :
    c ∈ Memory.insert a v m ↔ c = (a, v) ∨ c ∈ m := by
  induction m with
  | nil => simp [Memory.insert]
  | cons d m ih =>
    obtain ⟨b, w⟩ := d
    by_cases h : a < b
    · simp [Memory.insert, h]
    · simp only [Memory.insert, h, if_false, List.mem_cons, ih]; tauto

theorem Memory.wf_insert {a : Nat} {v : Byte} {m : Memory} (ha : a < Config.memSize) (hv : v ≠ resetByte a)
    (hne : ∀ c ∈ m, c.1 ≠ a) (h : Memory.wf m = true) : Memory.wf (Memory.insert a v m) = true := by
  induction m with
  | nil => exact (Memory.wf_cons_iff a v []).2 ⟨ha, hv, by simp, rfl⟩
  | cons d m ih =>
    obtain ⟨b, w⟩ := d
    obtain ⟨hb, hw, hall, hm⟩ := (Memory.wf_cons_iff b w m).1 h
    by_cases hlt : a < b
    · simp only [Memory.insert, hlt, if_true]
      refine (Memory.wf_cons_iff _ _ _).2 ⟨ha, hv, ?_, h⟩
      intro c hc
      rcases List.mem_cons.1 hc with rfl | hc
      · exact hlt
      · exact lt_trans hlt (hall c hc)
    · simp only [Memory.insert, hlt, if_false]
      have hba : b ≠ a := hne (b, w) (by simp)
      refine (Memory.wf_cons_iff _ _ _).2 ⟨hb, hw, ?_, ih (fun c hc => hne c (by simp [hc])) hm⟩
      intro c hc
      rcases Memory.mem_insert.1 hc with rfl | hc
      · show b < a; omega
      · exact hall c hc

/-- Writing one byte inside the address space keeps the canonical form. -/
theorem Memory.wf_poke {m : Memory} {a : Nat} (v : Byte) (ha : a < Config.memSize) (h : Memory.wf m = true) :
    Memory.wf (Memory.poke m a v) = true := by
  unfold Memory.poke
  by_cases hv : v = resetByte a
  · simpa [hv] using Memory.wf_filter m _ h
  · simpa [hv] using Memory.wf_insert ha hv (by simp) (Memory.wf_filter m _ h)

/-- Writing a block inside the address space keeps the canonical form. -/
theorem Memory.wf_pokeBytes {m : Memory} {a : Nat} (bs : List Byte) (ha : a + bs.length ≤ Config.memSize)
    (h : Memory.wf m = true) : Memory.wf (Memory.pokeBytes m a bs) = true := by
  induction bs generalizing m a with
  | nil => exact h
  | cons v bs ih =>
    simp only [List.length_cons] at ha
    exact ih (by omega) (Memory.wf_poke v (by omega) h)

/-- Reset lists nothing, so its memory is canonical. -/
theorem reset_mem_wf : Memory.wf State.reset.mem = true := rfl

/-! ### Checked accesses -/

theorem memRead_ok {m : Memory} {a : Nat} (h : a < Config.memSize) : memRead m a = .ok (Memory.peek m a) := by
  simp [memRead, h]

theorem memRead_error {m : Memory} {a : Nat} (h : Config.memSize ≤ a) : memRead m a = .error (.outOfBounds a) := by
  simp [memRead, Nat.not_lt.2 h]

/-- All that a checked read can answer. -/
theorem memRead_eq_ok_iff {m : Memory} {a : Nat} {b : Byte} :
    memRead m a = .ok b ↔ a < Config.memSize ∧ b = Memory.peek m a := by
  unfold memRead; split <;> simp_all [eq_comm]

/-- All that a checked write can answer. -/
theorem memWrite_eq_ok_iff {m m' : Memory} {a : Nat} {v : Byte} :
    memWrite m a v = .ok m' ↔ a < Config.memSize ∧ m' = Memory.poke m a v := by
  unfold memWrite; split <;> simp_all [eq_comm]

/-- A block that fits is read byte by byte. -/
theorem readBlock_ok (m : Memory) (a n : Nat) (h : n = 0 ∨ a + n ≤ Config.memSize) :
    readBlock m a n = .ok ((List.range n).map fun k => Memory.peek m (a + k)) := by
  induction n generalizing a with
  | zero => rfl
  | succ n ih =>
    have h' : a + n + 1 ≤ Config.memSize := by omega
    rw [readBlock, memRead_ok (by omega), ih (a + 1) (by omega)]
    simp only [List.range_succ_eq_map, List.map_cons, List.map_map, Nat.add_zero]
    congr 3
    funext k
    simp [Nat.add_assoc, Nat.add_comm 1 k]

/-- A block that does not fit faults for its lowest bad address (R166). -/
theorem readBlock_error (m : Memory) (a n : Nat) (h : n ≠ 0) (hb : Config.memSize < a + n) :
    readBlock m a n = .error (.outOfBounds (max a Config.memSize)) := by
  induction n generalizing a with
  | zero => exact absurd rfl h
  | succ n ih =>
    rw [readBlock]
    by_cases ha : a < Config.memSize
    · have hn : n ≠ 0 := by omega
      rw [memRead_ok ha, ih (a + 1) hn (by omega)]
      simp only [Except.error.injEq, Fault.outOfBounds.injEq]; omega
    · rw [memRead_error (by omega)]
      simp only [Except.error.injEq, Fault.outOfBounds.injEq]; omega

/-- A block that fits is written byte by byte. -/
theorem writeBlock_ok (m : Memory) (a : Nat) (bs : List Byte) (h : bs = [] ∨ a + bs.length ≤ Config.memSize) :
    writeBlock m a bs = .ok (Memory.pokeBytes m a bs) := by
  induction bs generalizing m a with
  | nil => rfl
  | cons v bs ih =>
    have h' : a + bs.length + 1 ≤ Config.memSize := by
      rcases h with h | h
      · simp at h
      · simp only [List.length_cons] at h; omega
    have hw : memWrite m a v = .ok (Memory.poke m a v) := memWrite_eq_ok_iff.2 ⟨by omega, rfl⟩
    rw [writeBlock, hw]
    exact ih _ _ (Or.inr (by omega))

/-- A block that does not fit faults for its lowest bad address, and answers no memory (R166, R222). -/
theorem writeBlock_error (m : Memory) (a : Nat) (bs : List Byte) (h : bs ≠ []) (hb : Config.memSize < a + bs.length) :
    writeBlock m a bs = .error (.outOfBounds (max a Config.memSize)) := by
  induction bs generalizing m a with
  | nil => exact absurd rfl h
  | cons v bs ih =>
    simp only [List.length_cons] at hb
    by_cases ha : a < Config.memSize
    · have hn : bs ≠ [] := by rintro rfl; simp at hb; omega
      have hw : memWrite m a v = .ok (Memory.poke m a v) := memWrite_eq_ok_iff.2 ⟨ha, rfl⟩
      rw [writeBlock, hw]
      show writeBlock (Memory.poke m a v) (a + 1) bs = _
      rw [ih _ _ hn (by omega)]
      simp only [Except.error.injEq, Fault.outOfBounds.injEq]; omega
    · have hw : memWrite m a v = .error (.outOfBounds a) := by simp [memWrite, ha]
      rw [writeBlock, hw]
      simp only [Except.error.injEq, Fault.outOfBounds.injEq]; omega

/-- All that a block read can answer. -/
theorem readBlock_cases (m : Memory) (a n : Nat) :
    ((n = 0 ∨ a + n ≤ Config.memSize) ∧ readBlock m a n = .ok ((List.range n).map fun k => Memory.peek m (a + k))) ∨
    (n ≠ 0 ∧ Config.memSize < a + n ∧ readBlock m a n = .error (.outOfBounds (max a Config.memSize))) := by
  by_cases h : n = 0 ∨ a + n ≤ Config.memSize
  · exact .inl ⟨h, readBlock_ok m a n h⟩
  · have hn : n ≠ 0 := fun e => h (.inl e)
    have hb : Config.memSize < a + n := Nat.lt_of_not_le fun e => h (.inr e)
    exact .inr ⟨hn, hb, readBlock_error m a n hn hb⟩

/-- All that a block write can answer. -/
theorem writeBlock_cases (m : Memory) (a : Nat) (bs : List Byte) :
    ((bs = [] ∨ a + bs.length ≤ Config.memSize) ∧ writeBlock m a bs = .ok (Memory.pokeBytes m a bs)) ∨
    (bs ≠ [] ∧ Config.memSize < a + bs.length ∧
      writeBlock m a bs = .error (.outOfBounds (max a Config.memSize))) := by
  by_cases h : bs = [] ∨ a + bs.length ≤ Config.memSize
  · exact .inl ⟨h, writeBlock_ok m a bs h⟩
  · have hn : bs ≠ [] := fun e => h (.inl e)
    have hb : Config.memSize < a + bs.length := Nat.lt_of_not_le fun e => h (.inr e)
    exact .inr ⟨hn, hb, writeBlock_error m a bs hn hb⟩

/-- Every checked write keeps the canonical form. -/
theorem memWrite_keeps_wf {m m' : Memory} {a : Nat} {v : Byte} (h : memWrite m a v = .ok m')
    (hm : Memory.wf m = true) : Memory.wf m' = true := by
  obtain ⟨ha, rfl⟩ := memWrite_eq_ok_iff.1 h
  exact Memory.wf_poke v ha hm

end Sys2Proof.Machine
end

