-- ==== Sys2Proof/Laws/State.lean ====
section
/-! SUPPORT. One lemma per field per single-field update of the state: what was set is read back, the rest is as
before. -/

namespace Sys2Proof.Machine

variable (s : State)

@[simp] theorem State.setV_v (v : Vector Byte 16) : (s.setV v).v = v := rfl
@[simp] theorem State.setV_index (v : Vector Byte 16) : (s.setV v).index = s.index := rfl
@[simp] theorem State.setV_dt (v : Vector Byte 16) : (s.setV v).dt = s.dt := rfl
@[simp] theorem State.setV_st (v : Vector Byte 16) : (s.setV v).st = s.st := rfl
@[simp] theorem State.setV_mem (v : Vector Byte 16) : (s.setV v).mem = s.mem := rfl
@[simp] theorem State.setV_pc (v : Vector Byte 16) : (s.setV v).pc = s.pc := rfl
@[simp] theorem State.setV_stack (v : Vector Byte 16) : (s.setV v).stack = s.stack := rfl
@[simp] theorem State.setV_halted (v : Vector Byte 16) : (s.setV v).halted = s.halted := rfl
@[simp] theorem State.setV_waitReg (v : Vector Byte 16) : (s.setV v).waitReg = s.waitReg := rfl
@[simp] theorem State.setV_fb (v : Vector Byte 16) : (s.setV v).fb = s.fb := rfl
@[simp] theorem State.setV_keys (v : Vector Byte 16) : (s.setV v).keys = s.keys := rfl
@[simp] theorem State.setV_fault (v : Vector Byte 16) : (s.setV v).fault = s.fault := rfl
@[simp] theorem State.setV_diag (v : Vector Byte 16) : (s.setV v).diag = s.diag := rfl
@[simp] theorem State.setV_draws (v : Vector Byte 16) : (s.setV v).draws = s.draws := rfl
@[simp] theorem State.setV_schedule (v : Vector Byte 16) : (s.setV v).schedule = s.schedule := rfl

@[simp] theorem State.setIndex_v (w : Word) : (s.setIndex w).v = s.v := rfl
@[simp] theorem State.setIndex_index (w : Word) : (s.setIndex w).index = w := rfl
@[simp] theorem State.setIndex_dt (w : Word) : (s.setIndex w).dt = s.dt := rfl
@[simp] theorem State.setIndex_st (w : Word) : (s.setIndex w).st = s.st := rfl
@[simp] theorem State.setIndex_mem (w : Word) : (s.setIndex w).mem = s.mem := rfl
@[simp] theorem State.setIndex_pc (w : Word) : (s.setIndex w).pc = s.pc := rfl
@[simp] theorem State.setIndex_stack (w : Word) : (s.setIndex w).stack = s.stack := rfl
@[simp] theorem State.setIndex_halted (w : Word) : (s.setIndex w).halted = s.halted := rfl
@[simp] theorem State.setIndex_waitReg (w : Word) : (s.setIndex w).waitReg = s.waitReg := rfl
@[simp] theorem State.setIndex_fb (w : Word) : (s.setIndex w).fb = s.fb := rfl
@[simp] theorem State.setIndex_keys (w : Word) : (s.setIndex w).keys = s.keys := rfl
@[simp] theorem State.setIndex_fault (w : Word) : (s.setIndex w).fault = s.fault := rfl
@[simp] theorem State.setIndex_diag (w : Word) : (s.setIndex w).diag = s.diag := rfl
@[simp] theorem State.setIndex_draws (w : Word) : (s.setIndex w).draws = s.draws := rfl
@[simp] theorem State.setIndex_schedule (w : Word) : (s.setIndex w).schedule = s.schedule := rfl

@[simp] theorem State.setDt_v (b : Byte) : (s.setDt b).v = s.v := rfl
@[simp] theorem State.setDt_index (b : Byte) : (s.setDt b).index = s.index := rfl
@[simp] theorem State.setDt_dt (b : Byte) : (s.setDt b).dt = b := rfl
@[simp] theorem State.setDt_st (b : Byte) : (s.setDt b).st = s.st := rfl
@[simp] theorem State.setDt_mem (b : Byte) : (s.setDt b).mem = s.mem := rfl
@[simp] theorem State.setDt_pc (b : Byte) : (s.setDt b).pc = s.pc := rfl
@[simp] theorem State.setDt_stack (b : Byte) : (s.setDt b).stack = s.stack := rfl
@[simp] theorem State.setDt_halted (b : Byte) : (s.setDt b).halted = s.halted := rfl
@[simp] theorem State.setDt_waitReg (b : Byte) : (s.setDt b).waitReg = s.waitReg := rfl
@[simp] theorem State.setDt_fb (b : Byte) : (s.setDt b).fb = s.fb := rfl
@[simp] theorem State.setDt_keys (b : Byte) : (s.setDt b).keys = s.keys := rfl
@[simp] theorem State.setDt_fault (b : Byte) : (s.setDt b).fault = s.fault := rfl
@[simp] theorem State.setDt_diag (b : Byte) : (s.setDt b).diag = s.diag := rfl
@[simp] theorem State.setDt_draws (b : Byte) : (s.setDt b).draws = s.draws := rfl
@[simp] theorem State.setDt_schedule (b : Byte) : (s.setDt b).schedule = s.schedule := rfl

@[simp] theorem State.setSt_v (b : Byte) : (s.setSt b).v = s.v := rfl
@[simp] theorem State.setSt_index (b : Byte) : (s.setSt b).index = s.index := rfl
@[simp] theorem State.setSt_dt (b : Byte) : (s.setSt b).dt = s.dt := rfl
@[simp] theorem State.setSt_st (b : Byte) : (s.setSt b).st = b := rfl
@[simp] theorem State.setSt_mem (b : Byte) : (s.setSt b).mem = s.mem := rfl
@[simp] theorem State.setSt_pc (b : Byte) : (s.setSt b).pc = s.pc := rfl
@[simp] theorem State.setSt_stack (b : Byte) : (s.setSt b).stack = s.stack := rfl
@[simp] theorem State.setSt_halted (b : Byte) : (s.setSt b).halted = s.halted := rfl
@[simp] theorem State.setSt_waitReg (b : Byte) : (s.setSt b).waitReg = s.waitReg := rfl
@[simp] theorem State.setSt_fb (b : Byte) : (s.setSt b).fb = s.fb := rfl
@[simp] theorem State.setSt_keys (b : Byte) : (s.setSt b).keys = s.keys := rfl
@[simp] theorem State.setSt_fault (b : Byte) : (s.setSt b).fault = s.fault := rfl
@[simp] theorem State.setSt_diag (b : Byte) : (s.setSt b).diag = s.diag := rfl
@[simp] theorem State.setSt_draws (b : Byte) : (s.setSt b).draws = s.draws := rfl
@[simp] theorem State.setSt_schedule (b : Byte) : (s.setSt b).schedule = s.schedule := rfl

@[simp] theorem State.setMem_v (m : Memory) : (s.setMem m).v = s.v := rfl
@[simp] theorem State.setMem_index (m : Memory) : (s.setMem m).index = s.index := rfl
@[simp] theorem State.setMem_dt (m : Memory) : (s.setMem m).dt = s.dt := rfl
@[simp] theorem State.setMem_st (m : Memory) : (s.setMem m).st = s.st := rfl
@[simp] theorem State.setMem_mem (m : Memory) : (s.setMem m).mem = m := rfl
@[simp] theorem State.setMem_pc (m : Memory) : (s.setMem m).pc = s.pc := rfl
@[simp] theorem State.setMem_stack (m : Memory) : (s.setMem m).stack = s.stack := rfl
@[simp] theorem State.setMem_halted (m : Memory) : (s.setMem m).halted = s.halted := rfl
@[simp] theorem State.setMem_waitReg (m : Memory) : (s.setMem m).waitReg = s.waitReg := rfl
@[simp] theorem State.setMem_fb (m : Memory) : (s.setMem m).fb = s.fb := rfl
@[simp] theorem State.setMem_keys (m : Memory) : (s.setMem m).keys = s.keys := rfl
@[simp] theorem State.setMem_fault (m : Memory) : (s.setMem m).fault = s.fault := rfl
@[simp] theorem State.setMem_diag (m : Memory) : (s.setMem m).diag = s.diag := rfl
@[simp] theorem State.setMem_draws (m : Memory) : (s.setMem m).draws = s.draws := rfl
@[simp] theorem State.setMem_schedule (m : Memory) : (s.setMem m).schedule = s.schedule := rfl

@[simp] theorem State.setPc_v (w : Word) : (s.setPc w).v = s.v := rfl
@[simp] theorem State.setPc_index (w : Word) : (s.setPc w).index = s.index := rfl
@[simp] theorem State.setPc_dt (w : Word) : (s.setPc w).dt = s.dt := rfl
@[simp] theorem State.setPc_st (w : Word) : (s.setPc w).st = s.st := rfl
@[simp] theorem State.setPc_mem (w : Word) : (s.setPc w).mem = s.mem := rfl
@[simp] theorem State.setPc_pc (w : Word) : (s.setPc w).pc = w := rfl
@[simp] theorem State.setPc_stack (w : Word) : (s.setPc w).stack = s.stack := rfl
@[simp] theorem State.setPc_halted (w : Word) : (s.setPc w).halted = s.halted := rfl
@[simp] theorem State.setPc_waitReg (w : Word) : (s.setPc w).waitReg = s.waitReg := rfl
@[simp] theorem State.setPc_fb (w : Word) : (s.setPc w).fb = s.fb := rfl
@[simp] theorem State.setPc_keys (w : Word) : (s.setPc w).keys = s.keys := rfl
@[simp] theorem State.setPc_fault (w : Word) : (s.setPc w).fault = s.fault := rfl
@[simp] theorem State.setPc_diag (w : Word) : (s.setPc w).diag = s.diag := rfl
@[simp] theorem State.setPc_draws (w : Word) : (s.setPc w).draws = s.draws := rfl
@[simp] theorem State.setPc_schedule (w : Word) : (s.setPc w).schedule = s.schedule := rfl

@[simp] theorem State.setStack_v (l : List Word) : (s.setStack l).v = s.v := rfl
@[simp] theorem State.setStack_index (l : List Word) : (s.setStack l).index = s.index := rfl
@[simp] theorem State.setStack_dt (l : List Word) : (s.setStack l).dt = s.dt := rfl
@[simp] theorem State.setStack_st (l : List Word) : (s.setStack l).st = s.st := rfl
@[simp] theorem State.setStack_mem (l : List Word) : (s.setStack l).mem = s.mem := rfl
@[simp] theorem State.setStack_pc (l : List Word) : (s.setStack l).pc = s.pc := rfl
@[simp] theorem State.setStack_stack (l : List Word) : (s.setStack l).stack = l := rfl
@[simp] theorem State.setStack_halted (l : List Word) : (s.setStack l).halted = s.halted := rfl
@[simp] theorem State.setStack_waitReg (l : List Word) : (s.setStack l).waitReg = s.waitReg := rfl
@[simp] theorem State.setStack_fb (l : List Word) : (s.setStack l).fb = s.fb := rfl
@[simp] theorem State.setStack_keys (l : List Word) : (s.setStack l).keys = s.keys := rfl
@[simp] theorem State.setStack_fault (l : List Word) : (s.setStack l).fault = s.fault := rfl
@[simp] theorem State.setStack_diag (l : List Word) : (s.setStack l).diag = s.diag := rfl
@[simp] theorem State.setStack_draws (l : List Word) : (s.setStack l).draws = s.draws := rfl
@[simp] theorem State.setStack_schedule (l : List Word) : (s.setStack l).schedule = s.schedule := rfl

@[simp] theorem State.setHalted_v (b : Bool) : (s.setHalted b).v = s.v := rfl
@[simp] theorem State.setHalted_index (b : Bool) : (s.setHalted b).index = s.index := rfl
@[simp] theorem State.setHalted_dt (b : Bool) : (s.setHalted b).dt = s.dt := rfl
@[simp] theorem State.setHalted_st (b : Bool) : (s.setHalted b).st = s.st := rfl
@[simp] theorem State.setHalted_mem (b : Bool) : (s.setHalted b).mem = s.mem := rfl
@[simp] theorem State.setHalted_pc (b : Bool) : (s.setHalted b).pc = s.pc := rfl
@[simp] theorem State.setHalted_stack (b : Bool) : (s.setHalted b).stack = s.stack := rfl
@[simp] theorem State.setHalted_halted (b : Bool) : (s.setHalted b).halted = b := rfl
@[simp] theorem State.setHalted_waitReg (b : Bool) : (s.setHalted b).waitReg = s.waitReg := rfl
@[simp] theorem State.setHalted_fb (b : Bool) : (s.setHalted b).fb = s.fb := rfl
@[simp] theorem State.setHalted_keys (b : Bool) : (s.setHalted b).keys = s.keys := rfl
@[simp] theorem State.setHalted_fault (b : Bool) : (s.setHalted b).fault = s.fault := rfl
@[simp] theorem State.setHalted_diag (b : Bool) : (s.setHalted b).diag = s.diag := rfl
@[simp] theorem State.setHalted_draws (b : Bool) : (s.setHalted b).draws = s.draws := rfl
@[simp] theorem State.setHalted_schedule (b : Bool) : (s.setHalted b).schedule = s.schedule := rfl

@[simp] theorem State.setWaitReg_v (x : Reg) : (s.setWaitReg x).v = s.v := rfl
@[simp] theorem State.setWaitReg_index (x : Reg) : (s.setWaitReg x).index = s.index := rfl
@[simp] theorem State.setWaitReg_dt (x : Reg) : (s.setWaitReg x).dt = s.dt := rfl
@[simp] theorem State.setWaitReg_st (x : Reg) : (s.setWaitReg x).st = s.st := rfl
@[simp] theorem State.setWaitReg_mem (x : Reg) : (s.setWaitReg x).mem = s.mem := rfl
@[simp] theorem State.setWaitReg_pc (x : Reg) : (s.setWaitReg x).pc = s.pc := rfl
@[simp] theorem State.setWaitReg_stack (x : Reg) : (s.setWaitReg x).stack = s.stack := rfl
@[simp] theorem State.setWaitReg_halted (x : Reg) : (s.setWaitReg x).halted = s.halted := rfl
@[simp] theorem State.setWaitReg_waitReg (x : Reg) : (s.setWaitReg x).waitReg = x := rfl
@[simp] theorem State.setWaitReg_fb (x : Reg) : (s.setWaitReg x).fb = s.fb := rfl
@[simp] theorem State.setWaitReg_keys (x : Reg) : (s.setWaitReg x).keys = s.keys := rfl
@[simp] theorem State.setWaitReg_fault (x : Reg) : (s.setWaitReg x).fault = s.fault := rfl
@[simp] theorem State.setWaitReg_diag (x : Reg) : (s.setWaitReg x).diag = s.diag := rfl
@[simp] theorem State.setWaitReg_draws (x : Reg) : (s.setWaitReg x).draws = s.draws := rfl
@[simp] theorem State.setWaitReg_schedule (x : Reg) : (s.setWaitReg x).schedule = s.schedule := rfl

@[simp] theorem State.setFb_v (fb : Framebuffer) : (s.setFb fb).v = s.v := rfl
@[simp] theorem State.setFb_index (fb : Framebuffer) : (s.setFb fb).index = s.index := rfl
@[simp] theorem State.setFb_dt (fb : Framebuffer) : (s.setFb fb).dt = s.dt := rfl
@[simp] theorem State.setFb_st (fb : Framebuffer) : (s.setFb fb).st = s.st := rfl
@[simp] theorem State.setFb_mem (fb : Framebuffer) : (s.setFb fb).mem = s.mem := rfl
@[simp] theorem State.setFb_pc (fb : Framebuffer) : (s.setFb fb).pc = s.pc := rfl
@[simp] theorem State.setFb_stack (fb : Framebuffer) : (s.setFb fb).stack = s.stack := rfl
@[simp] theorem State.setFb_halted (fb : Framebuffer) : (s.setFb fb).halted = s.halted := rfl
@[simp] theorem State.setFb_waitReg (fb : Framebuffer) : (s.setFb fb).waitReg = s.waitReg := rfl
@[simp] theorem State.setFb_fb (fb : Framebuffer) : (s.setFb fb).fb = fb := rfl
@[simp] theorem State.setFb_keys (fb : Framebuffer) : (s.setFb fb).keys = s.keys := rfl
@[simp] theorem State.setFb_fault (fb : Framebuffer) : (s.setFb fb).fault = s.fault := rfl
@[simp] theorem State.setFb_diag (fb : Framebuffer) : (s.setFb fb).diag = s.diag := rfl
@[simp] theorem State.setFb_draws (fb : Framebuffer) : (s.setFb fb).draws = s.draws := rfl
@[simp] theorem State.setFb_schedule (fb : Framebuffer) : (s.setFb fb).schedule = s.schedule := rfl

@[simp] theorem State.setKeys_v (ks : Vector Bool 16) : (s.setKeys ks).v = s.v := rfl
@[simp] theorem State.setKeys_index (ks : Vector Bool 16) : (s.setKeys ks).index = s.index := rfl
@[simp] theorem State.setKeys_dt (ks : Vector Bool 16) : (s.setKeys ks).dt = s.dt := rfl
@[simp] theorem State.setKeys_st (ks : Vector Bool 16) : (s.setKeys ks).st = s.st := rfl
@[simp] theorem State.setKeys_mem (ks : Vector Bool 16) : (s.setKeys ks).mem = s.mem := rfl
@[simp] theorem State.setKeys_pc (ks : Vector Bool 16) : (s.setKeys ks).pc = s.pc := rfl
@[simp] theorem State.setKeys_stack (ks : Vector Bool 16) : (s.setKeys ks).stack = s.stack := rfl
@[simp] theorem State.setKeys_halted (ks : Vector Bool 16) : (s.setKeys ks).halted = s.halted := rfl
@[simp] theorem State.setKeys_waitReg (ks : Vector Bool 16) : (s.setKeys ks).waitReg = s.waitReg := rfl
@[simp] theorem State.setKeys_fb (ks : Vector Bool 16) : (s.setKeys ks).fb = s.fb := rfl
@[simp] theorem State.setKeys_keys (ks : Vector Bool 16) : (s.setKeys ks).keys = ks := rfl
@[simp] theorem State.setKeys_fault (ks : Vector Bool 16) : (s.setKeys ks).fault = s.fault := rfl
@[simp] theorem State.setKeys_diag (ks : Vector Bool 16) : (s.setKeys ks).diag = s.diag := rfl
@[simp] theorem State.setKeys_draws (ks : Vector Bool 16) : (s.setKeys ks).draws = s.draws := rfl
@[simp] theorem State.setKeys_schedule (ks : Vector Bool 16) : (s.setKeys ks).schedule = s.schedule := rfl

@[simp] theorem State.setFault_v (k : Option Fault) : (s.setFault k).v = s.v := rfl
@[simp] theorem State.setFault_index (k : Option Fault) : (s.setFault k).index = s.index := rfl
@[simp] theorem State.setFault_dt (k : Option Fault) : (s.setFault k).dt = s.dt := rfl
@[simp] theorem State.setFault_st (k : Option Fault) : (s.setFault k).st = s.st := rfl
@[simp] theorem State.setFault_mem (k : Option Fault) : (s.setFault k).mem = s.mem := rfl
@[simp] theorem State.setFault_pc (k : Option Fault) : (s.setFault k).pc = s.pc := rfl
@[simp] theorem State.setFault_stack (k : Option Fault) : (s.setFault k).stack = s.stack := rfl
@[simp] theorem State.setFault_halted (k : Option Fault) : (s.setFault k).halted = s.halted := rfl
@[simp] theorem State.setFault_waitReg (k : Option Fault) : (s.setFault k).waitReg = s.waitReg := rfl
@[simp] theorem State.setFault_fb (k : Option Fault) : (s.setFault k).fb = s.fb := rfl
@[simp] theorem State.setFault_keys (k : Option Fault) : (s.setFault k).keys = s.keys := rfl
@[simp] theorem State.setFault_fault (k : Option Fault) : (s.setFault k).fault = k := rfl
@[simp] theorem State.setFault_diag (k : Option Fault) : (s.setFault k).diag = s.diag := rfl
@[simp] theorem State.setFault_draws (k : Option Fault) : (s.setFault k).draws = s.draws := rfl
@[simp] theorem State.setFault_schedule (k : Option Fault) : (s.setFault k).schedule = s.schedule := rfl

@[simp] theorem State.setDiag_v (d : Option Diagnostic) : (s.setDiag d).v = s.v := rfl
@[simp] theorem State.setDiag_index (d : Option Diagnostic) : (s.setDiag d).index = s.index := rfl
@[simp] theorem State.setDiag_dt (d : Option Diagnostic) : (s.setDiag d).dt = s.dt := rfl
@[simp] theorem State.setDiag_st (d : Option Diagnostic) : (s.setDiag d).st = s.st := rfl
@[simp] theorem State.setDiag_mem (d : Option Diagnostic) : (s.setDiag d).mem = s.mem := rfl
@[simp] theorem State.setDiag_pc (d : Option Diagnostic) : (s.setDiag d).pc = s.pc := rfl
@[simp] theorem State.setDiag_stack (d : Option Diagnostic) : (s.setDiag d).stack = s.stack := rfl
@[simp] theorem State.setDiag_halted (d : Option Diagnostic) : (s.setDiag d).halted = s.halted := rfl
@[simp] theorem State.setDiag_waitReg (d : Option Diagnostic) : (s.setDiag d).waitReg = s.waitReg := rfl
@[simp] theorem State.setDiag_fb (d : Option Diagnostic) : (s.setDiag d).fb = s.fb := rfl
@[simp] theorem State.setDiag_keys (d : Option Diagnostic) : (s.setDiag d).keys = s.keys := rfl
@[simp] theorem State.setDiag_fault (d : Option Diagnostic) : (s.setDiag d).fault = s.fault := rfl
@[simp] theorem State.setDiag_diag (d : Option Diagnostic) : (s.setDiag d).diag = d := rfl
@[simp] theorem State.setDiag_draws (d : Option Diagnostic) : (s.setDiag d).draws = s.draws := rfl
@[simp] theorem State.setDiag_schedule (d : Option Diagnostic) : (s.setDiag d).schedule = s.schedule := rfl

@[simp] theorem State.setDraws_v (n : Nat) : (s.setDraws n).v = s.v := rfl
@[simp] theorem State.setDraws_index (n : Nat) : (s.setDraws n).index = s.index := rfl
@[simp] theorem State.setDraws_dt (n : Nat) : (s.setDraws n).dt = s.dt := rfl
@[simp] theorem State.setDraws_st (n : Nat) : (s.setDraws n).st = s.st := rfl
@[simp] theorem State.setDraws_mem (n : Nat) : (s.setDraws n).mem = s.mem := rfl
@[simp] theorem State.setDraws_pc (n : Nat) : (s.setDraws n).pc = s.pc := rfl
@[simp] theorem State.setDraws_stack (n : Nat) : (s.setDraws n).stack = s.stack := rfl
@[simp] theorem State.setDraws_halted (n : Nat) : (s.setDraws n).halted = s.halted := rfl
@[simp] theorem State.setDraws_waitReg (n : Nat) : (s.setDraws n).waitReg = s.waitReg := rfl
@[simp] theorem State.setDraws_fb (n : Nat) : (s.setDraws n).fb = s.fb := rfl
@[simp] theorem State.setDraws_keys (n : Nat) : (s.setDraws n).keys = s.keys := rfl
@[simp] theorem State.setDraws_fault (n : Nat) : (s.setDraws n).fault = s.fault := rfl
@[simp] theorem State.setDraws_diag (n : Nat) : (s.setDraws n).diag = s.diag := rfl
@[simp] theorem State.setDraws_draws (n : Nat) : (s.setDraws n).draws = n := rfl
@[simp] theorem State.setDraws_schedule (n : Nat) : (s.setDraws n).schedule = s.schedule := rfl

@[simp] theorem State.setSchedule_v (l : List (List HostEvent)) : (s.setSchedule l).v = s.v := rfl
@[simp] theorem State.setSchedule_index (l : List (List HostEvent)) : (s.setSchedule l).index = s.index := rfl
@[simp] theorem State.setSchedule_dt (l : List (List HostEvent)) : (s.setSchedule l).dt = s.dt := rfl
@[simp] theorem State.setSchedule_st (l : List (List HostEvent)) : (s.setSchedule l).st = s.st := rfl
@[simp] theorem State.setSchedule_mem (l : List (List HostEvent)) : (s.setSchedule l).mem = s.mem := rfl
@[simp] theorem State.setSchedule_pc (l : List (List HostEvent)) : (s.setSchedule l).pc = s.pc := rfl
@[simp] theorem State.setSchedule_stack (l : List (List HostEvent)) : (s.setSchedule l).stack = s.stack := rfl
@[simp] theorem State.setSchedule_halted (l : List (List HostEvent)) : (s.setSchedule l).halted = s.halted := rfl
@[simp] theorem State.setSchedule_waitReg (l : List (List HostEvent)) : (s.setSchedule l).waitReg = s.waitReg := rfl
@[simp] theorem State.setSchedule_fb (l : List (List HostEvent)) : (s.setSchedule l).fb = s.fb := rfl
@[simp] theorem State.setSchedule_keys (l : List (List HostEvent)) : (s.setSchedule l).keys = s.keys := rfl
@[simp] theorem State.setSchedule_fault (l : List (List HostEvent)) : (s.setSchedule l).fault = s.fault := rfl
@[simp] theorem State.setSchedule_diag (l : List (List HostEvent)) : (s.setSchedule l).diag = s.diag := rfl
@[simp] theorem State.setSchedule_draws (l : List (List HostEvent)) : (s.setSchedule l).draws = s.draws := rfl
@[simp] theorem State.setSchedule_schedule (l : List (List HostEvent)) : (s.setSchedule l).schedule = l := rfl

/-! Setting a field to what it holds, and setting it twice. -/

@[simp] theorem State.setV_self : s.setV s.v = s := rfl
@[simp] theorem State.setV_setV (v v' : Vector Byte 16) : (s.setV v).setV v' = s.setV v' := rfl
@[simp] theorem State.setIndex_self : s.setIndex s.index = s := rfl
@[simp] theorem State.setIndex_setIndex (w w' : Word) : (s.setIndex w).setIndex w' = s.setIndex w' := rfl
@[simp] theorem State.setDt_self : s.setDt s.dt = s := rfl
@[simp] theorem State.setDt_setDt (b b' : Byte) : (s.setDt b).setDt b' = s.setDt b' := rfl
@[simp] theorem State.setSt_self : s.setSt s.st = s := rfl
@[simp] theorem State.setSt_setSt (b b' : Byte) : (s.setSt b).setSt b' = s.setSt b' := rfl
@[simp] theorem State.setMem_self : s.setMem s.mem = s := rfl
@[simp] theorem State.setMem_setMem (m m' : Memory) : (s.setMem m).setMem m' = s.setMem m' := rfl
@[simp] theorem State.setPc_self : s.setPc s.pc = s := rfl
@[simp] theorem State.setPc_setPc (w w' : Word) : (s.setPc w).setPc w' = s.setPc w' := rfl
@[simp] theorem State.setStack_self : s.setStack s.stack = s := rfl
@[simp] theorem State.setStack_setStack (l l' : List Word) : (s.setStack l).setStack l' = s.setStack l' := rfl
@[simp] theorem State.setHalted_self : s.setHalted s.halted = s := rfl
@[simp] theorem State.setHalted_setHalted (b b' : Bool) : (s.setHalted b).setHalted b' = s.setHalted b' := rfl
@[simp] theorem State.setWaitReg_self : s.setWaitReg s.waitReg = s := rfl
@[simp] theorem State.setWaitReg_setWaitReg (x x' : Reg) : (s.setWaitReg x).setWaitReg x' = s.setWaitReg x' := rfl
@[simp] theorem State.setFb_self : s.setFb s.fb = s := rfl
@[simp] theorem State.setFb_setFb (fb fb' : Framebuffer) : (s.setFb fb).setFb fb' = s.setFb fb' := rfl
@[simp] theorem State.setKeys_self : s.setKeys s.keys = s := rfl
@[simp] theorem State.setKeys_setKeys (ks ks' : Vector Bool 16) : (s.setKeys ks).setKeys ks' = s.setKeys ks' := rfl
@[simp] theorem State.setFault_self : s.setFault s.fault = s := rfl
@[simp] theorem State.setFault_setFault (k k' : Option Fault) : (s.setFault k).setFault k' = s.setFault k' := rfl
@[simp] theorem State.setDiag_self : s.setDiag s.diag = s := rfl
@[simp] theorem State.setDiag_setDiag (d d' : Option Diagnostic) : (s.setDiag d).setDiag d' = s.setDiag d' := rfl
@[simp] theorem State.setDraws_self : s.setDraws s.draws = s := rfl
@[simp] theorem State.setDraws_setDraws (n n' : Nat) : (s.setDraws n).setDraws n' = s.setDraws n' := rfl
@[simp] theorem State.setSchedule_self : s.setSchedule s.schedule = s := rfl
@[simp] theorem State.setSchedule_setSchedule (l l' : List (List HostEvent)) : (s.setSchedule l).setSchedule l' = s.setSchedule l' := rfl

/-- Two states with equal fields are equal. -/
theorem State.eq_of_fields {s t : State} (hv : t.v = s.v) (hi : t.index = s.index) (hdt : t.dt = s.dt) (hst : t.st = s.st)
    (hm : t.mem = s.mem) (hpc : t.pc = s.pc) (hs : t.stack = s.stack) (hh : t.halted = s.halted)
    (hw : t.waitReg = s.waitReg) (hf : t.fb = s.fb) (hk : t.keys = s.keys) (hfa : t.fault = s.fault)
    (hd : t.diag = s.diag) (hdr : t.draws = s.draws) (hsc : t.schedule = s.schedule) : t = s := by
  cases s; cases t; simp_all

end Sys2Proof.Machine
end

