-- ==== Sys2Proof/Laws/Ops.lean ====
section
/-! SUPPORT. What each shared operation does, said once: registers, flags, skips, the call stack, blocks, keys. -/

namespace Sys2Proof.Machine

/-! ### Registers -/

/-- A register write as the update of one field. -/
theorem writeReg_eq (x : Reg) (b : Byte) (s : State) : writeReg x b s = s.setV (s.v.set x b) := rfl

theorem readReg_setV (s : State) (v : Vector Byte 16) (r : Reg) : readReg (s.setV v) r = v[r] := rfl

@[simp] theorem readReg_writeReg_self (x : Reg) (b : Byte) (s : State) : readReg (writeReg x b s) x = b := by
  simp [readReg, writeReg]

theorem readReg_writeReg_ne {x r : Reg} (h : r ≠ x) (b : Byte) (s : State) :
    readReg (writeReg x b s) r = readReg s r := by
  have hv : x.val ≠ r.val := fun e => h (Fin.ext e.symm)
  simp [readReg, writeReg, Vector.getElem_set_ne, hv]

/-- Both writes of a flag instruction as the update of one field. -/
theorem resultThenFlag_eq (x : Reg) (r : Byte) (f : Bool) (s : State) :
    resultThenFlag x r f s = s.setV ((s.v.set x r).set vf (flagByte f)) := rfl

theorem flagThenResult_eq (x : Reg) (r : Byte) (f : Bool) (s : State) :
    flagThenResult x r f s = s.setV ((s.v.set vf (flagByte f)).set x r) := rfl

theorem writeFlag_eq (f : Bool) (s : State) : writeFlag f s = s.setV (s.v.set vf (flagByte f)) := rfl

/-- "VX, then VF": the flag always stays. -/
@[simp] theorem readReg_resultThenFlag_vf (x : Reg) (r : Byte) (f : Bool) (s : State) :
    readReg (resultThenFlag x r f s) vf = flagByte f := readReg_writeReg_self _ _ _

theorem readReg_resultThenFlag_x {x : Reg} (h : x ≠ vf) (r : Byte) (f : Bool) (s : State) :
    readReg (resultThenFlag x r f s) x = r := by
  rw [resultThenFlag, writeFlag, readReg_writeReg_ne h, readReg_writeReg_self]

theorem readReg_resultThenFlag_other {x q : Reg} (h : q ≠ x) (hf : q ≠ vf) (r : Byte) (f : Bool) (s : State) :
    readReg (resultThenFlag x r f s) q = readReg s q := by
  rw [resultThenFlag, writeFlag, readReg_writeReg_ne hf, readReg_writeReg_ne h]

/-- "VF, then VX": the result always stays. -/
@[simp] theorem readReg_flagThenResult_x (x : Reg) (r : Byte) (f : Bool) (s : State) :
    readReg (flagThenResult x r f s) x = r := readReg_writeReg_self _ _ _

theorem readReg_flagThenResult_vf {x : Reg} (h : x ≠ vf) (r : Byte) (f : Bool) (s : State) :
    readReg (flagThenResult x r f s) vf = flagByte f := by
  rw [flagThenResult, readReg_writeReg_ne (Ne.symm h), writeFlag, readReg_writeReg_self]

theorem readReg_flagThenResult_other {x q : Reg} (h : q ≠ x) (hf : q ≠ vf) (r : Byte) (f : Bool) (s : State) :
    readReg (flagThenResult x r f s) q = readReg s q := by
  rw [flagThenResult, readReg_writeReg_ne h, writeFlag, readReg_writeReg_ne hf]

theorem flagByte_toNat (f : Bool) : (flagByte f).toNat = if f then 1 else 0 := by cases f <;> rfl

/-! ### Blocks of registers -/

@[simp] theorem regsUpTo_length (s : State) (x : Reg) : (regsUpTo s x).length = x.val + 1 := by
  have := x.isLt
  simp [regsUpTo]

theorem regsUpTo_getElem (s : State) (x : Reg) (k : Nat) (h : k < (regsUpTo s x).length) :
    (regsUpTo s x)[k] = readReg s ⟨k, by have := x.isLt; simp at h; omega⟩ := by
  simp [regsUpTo, readReg]

/-- After a block of bytes is put into the registers from `k` up, register `r` holds its byte of the block, or what it
held. -/
theorem writeRegsFrom_getElem (v : Vector Byte 16) (k : Nat) (bs : List Byte) (r : Nat) (hr : r < 16) :
    (writeRegsFrom v k bs)[r] = if h : k ≤ r ∧ r < k + bs.length then bs[r - k]'(by omega) else v[r] := by
  induction bs generalizing v k with
  | nil =>
    have : ¬ (k ≤ r ∧ r < k + ([] : List Byte).length) := by simp only [List.length_nil]; omega
    rw [dif_neg this]; rfl
  | cons b bs ih =>
    have hset : (if h : k < 16 then v.set k b else v)[r] = if r = k then b else v[r] := by
      by_cases hk : k < 16
      · rw [dif_pos hk, Vector.getElem_set]; simp [eq_comm]
      · rw [dif_neg hk, if_neg (by omega)]
    rw [writeRegsFrom, ih, hset]
    simp only [List.length_cons]
    rcases Nat.lt_trichotomy r k with hlt | rfl | hgt
    · rw [dif_neg (by omega), dif_neg (by omega), if_neg (by omega)]
    · rw [dif_neg (by omega), dif_pos (by omega), if_pos rfl]; simp
    · by_cases hin : r < k + (bs.length + 1)
      · rw [dif_pos (by omega), dif_pos (by omega)]
        have e : r - k = (r - (k + 1)) + 1 := by omega
        simp [e]
      · rw [dif_neg (by omega), dif_neg (by omega), if_neg (by omega)]

@[simp] theorem bcdDigits_length (a : Byte) : (bcdDigits a).length = 3 := rfl

/-! ### Skips and faults -/

/-- A skip changes pc at most. -/
theorem skipIf_eq (c : Bool) (s : State) : skipIf c s = s.setPc (if c then s.pc + 2 else s.pc) := by
  cases c <;> rfl

/-- All that `orRaise` can answer with a next state. -/
theorem orRaise_eq_next_iff {α : Type} {r : Except Fault α} {go : α → Result} {t : State} :
    orRaise r go = .next t ↔ ∃ a, r = .ok a ∧ go a = .next t := by
  cases r <;> simp [orRaise, raise]

/-- All that `orRaise` can answer with a fault. -/
theorem orRaise_eq_fault_iff {α : Type} {r : Except Fault α} {go : α → Result} {k : Fault} :
    orRaise r go = .fault k ↔ r = .error k ∨ ∃ a, r = .ok a ∧ go a = .fault k := by
  cases r <;> simp [orRaise, raise]

/-- `orRaise` adds no refusal of its own. -/
theorem orRaise_eq_refused_iff {α : Type} {r : Except Fault α} {go : α → Result} {k : Refusal} :
    orRaise r go = .refused k ↔ ∃ a, r = .ok a ∧ go a = .refused k := by
  cases r <;> simp [orRaise, raise]

/-- All that a return can do. -/
theorem execRet_cases (s : State) :
    (∃ top rest, s.stack = top :: rest ∧ execRet s = .next ((s.setStack rest).setPc top)) ∨
    (s.stack = [] ∧ execRet s = .fault (.stackUnderflow (instrAddr s))) := by
  unfold execRet popReturn
  cases s.stack with
  | nil => exact .inr ⟨rfl, rfl⟩
  | cons top rest => exact .inl ⟨top, rest, rfl, rfl⟩

/-- All that a call can do. -/
theorem execCall_cases (nnn : Addr12) (s : State) :
    (s.stack.length < stackLimit ∧
      execCall nnn s = .next ((s.setStack (s.pc :: s.stack)).setPc (absAddress nnn))) ∨
    (stackLimit ≤ s.stack.length ∧ execCall nnn s = .fault (.stackOverflow (instrAddr s))) := by
  unfold execCall pushReturn
  by_cases h : s.stack.length < stackLimit
  · exact .inl ⟨h, by simp [h, orRaise]⟩
  · exact .inr ⟨Nat.le_of_not_lt h, by simp [h, orRaise, raise]⟩

/-- All that a store of bytes at I can do. -/
theorem storeAtIndex_cases (bs : List Byte) (s : State) :
    ((bs = [] ∨ s.index.toNat + bs.length ≤ Config.memSize) ∧
      storeAtIndex bs s = .next (s.setMem (Memory.pokeBytes s.mem s.index.toNat bs))) ∨
    (bs ≠ [] ∧ Config.memSize < s.index.toNat + bs.length ∧
      storeAtIndex bs s = .fault (.outOfBounds (max s.index.toNat Config.memSize))) := by
  unfold storeAtIndex effectiveAddress
  rcases writeBlock_cases s.mem (s.index.toNat + 0) bs with ⟨h, e⟩ | ⟨hn, h, e⟩
  · exact .inl ⟨h, by rw [e]; rfl⟩
  · exact .inr ⟨hn, h, by rw [e]; rfl⟩

/-- All that a block load can do. -/
theorem execLdRegs_cases (x : Reg) (s : State) :
    (s.index.toNat + x.val + 1 ≤ Config.memSize ∧
      execLdRegs x s = .next (s.setV (writeRegsFrom s.v 0
        ((List.range (x.val + 1)).map fun k => Memory.peek s.mem (s.index.toNat + k))))) ∨
    (Config.memSize < s.index.toNat + x.val + 1 ∧
      execLdRegs x s = .fault (.outOfBounds (max s.index.toNat Config.memSize))) := by
  unfold execLdRegs effectiveAddress
  rcases readBlock_cases s.mem (s.index.toNat + 0) (x.val + 1) with ⟨h, e⟩ | ⟨hn, h, e⟩
  · exact .inl ⟨by omega, by rw [e]; rfl⟩
  · exact .inr ⟨by omega, by rw [e]; rfl⟩

/-! ### Keys -/

theorem keyNumber_some {a : Byte} (h : a.toNat < 16) : keyNumber a = some ⟨a.toNat, h⟩ := dif_pos h

theorem keyNumber_none {a : Byte} (h : 16 ≤ a.toNat) : keyNumber a = none := dif_neg (by omega)

/-- All that a key skip can do, under any policy. -/
theorem keySkip_cases (p : Config.KeyRangePolicy) (want : Bool) (x : Reg) (s : State) :
    (∃ h : (readReg s x).toNat < 16,
      keySkip p want x s = .next (skipIf (isPressed s ⟨(readReg s x).toNat, h⟩ == want) s)) ∨
    (16 ≤ (readReg s x).toNat ∧ keySkip p want x s = keyOutOfRange p want (readReg s x) s) := by
  unfold keySkip
  by_cases h : (readReg s x).toNat < 16
  · exact .inl ⟨h, by simp [keyNumber_some h]⟩
  · exact .inr ⟨by omega, by simp [keyNumber_none (Nat.le_of_not_lt h)]⟩

/-- The poll answers a key that is down and none below it, or no key is down. -/
theorem pollAnyPressed_cases (s : State) :
    (∃ k, pollAnyPressed s = some k ∧ isPressed s k = true ∧ ∀ j, j < k → isPressed s j = false) ∨
    (pollAnyPressed s = none ∧ ∀ k, isPressed s k = false) := by
  unfold pollAnyPressed
  cases h : (List.finRange 16).find? (fun k => isPressed s k) with
  | none =>
    refine .inr ⟨rfl, fun k => ?_⟩
    simpa using List.find?_eq_none.1 h k (List.mem_finRange k)
  | some k =>
    refine .inl ⟨k, rfl, by simpa using List.find?_some h, fun j hj => ?_⟩
    obtain ⟨-, as, bs, heq, hall⟩ := List.find?_eq_some_iff_append.1 h
    have hsorted : (List.finRange 16).Pairwise (· < ·) := by decide
    have hmem : j ∈ as ++ k :: bs := heq ▸ List.mem_finRange j
    rw [heq] at hsorted
    rcases List.mem_append.1 hmem with hin | hin
    · simpa using hall j hin
    · have := (List.pairwise_append.1 hsorted).2.1
      rcases List.mem_cons.1 hin with rfl | hin
      · exact absurd hj (lt_irrefl _)
      · exact absurd ((List.pairwise_cons.1 this).1 j hin) (not_lt.2 (le_of_lt hj))

end Sys2Proof.Machine
end

