-- ==== Sys2Proof/Laws/Display.lean ====
section
/-! SUPPORT. What the pixel engine does: one pixel, one row, one sprite. -/

namespace Sys2Proof.Machine

@[simp] theorem getPixel_clearPixels (x : Fin 64) (y : Fin 32) : getPixel clearPixels x y = false := by
  simp [getPixel, clearPixels]

/-- The pixel that `set_pixel` names takes the XOR. -/
@[simp] theorem getPixel_setPixel_self (fb : Framebuffer) (x : Fin 64) (y : Fin 32) (b : Bool) :
    getPixel (setPixel fb x y b).1 x y = (getPixel fb x y ^^ b) := by
  simp [getPixel, setPixel]

/-- Every other pixel is as before. -/
theorem getPixel_setPixel_ne (fb : Framebuffer) {x px : Fin 64} {y py : Fin 32} (b : Bool) (h : px ≠ x ∨ py ≠ y) :
    getPixel (setPixel fb x y b).1 px py = getPixel fb px py := by
  by_cases hy : y.val = py.val
  · have hyy : y = py := Fin.ext hy
    subst hyy
    have hx : x.val ≠ px.val := fun e => by
      rcases h with h | h
      · exact h (Fin.ext e.symm)
      · exact h rfl
    simp [getPixel, setPixel, Vector.getElem_set_ne, hx]
  · simp [getPixel, setPixel, Vector.getElem_set_ne, hy]

/-- `set_pixel` reports a change exactly when the incoming bit is 1 (R181). -/
@[simp] theorem setPixel_flip (fb : Framebuffer) (x : Fin 64) (y : Fin 32) (b : Bool) : (setPixel fb x y b).2 = b := by
  simp only [setPixel]; cases getPixel fb x y <;> cases b <;> rfl

/-- Column `c` of a row at `x0` lands on column `px`. -/
def columnLands (x0 c : Nat) (px : Fin 64) : Prop := wrapX (x0 + c) = px

/-- Two columns of one sprite row never land on one pixel (R183(b)). -/
theorem wrapX_injective {x0 c d : Nat} (hc : c < 64) (hd : d < 64) (h : wrapX (x0 + c) = wrapX (x0 + d)) : c = d := by
  have := congrArg Fin.val h
  simp only [wrapX, Fin.val_ofNat] at this
  omega

/-- Two of the at most 32 rows of one sprite never land on one line (R183(b)). -/
theorem wrapY_injective {y0 r q : Nat} (hr : r < 32) (hq : q < 32) (h : wrapY (y0 + r) = wrapY (y0 + q)) : r = q := by
  have := congrArg Fin.val h
  simp only [wrapY, Fin.val_ofNat] at this
  omega

/-- A pixel on another line, or on no column that is drawn, is left alone. -/
theorem drawColumns_untouched (row : Byte) (x0 : Nat) (y : Fin 32) (c k : Nat) (acc : Framebuffer × Bool)
    (px : Fin 64) (py : Fin 32) (h : py ≠ y ∨ ∀ d, c ≤ d → d < c + k → wrapX (x0 + d) ≠ px) :
    getPixel (drawColumns row x0 y c k acc).1 px py = getPixel acc.1 px py := by
  induction k generalizing c acc with
  | zero => rfl
  | succ k ih =>
    rw [drawColumns, ih]
    · apply getPixel_setPixel_ne
      rcases h with h | h
      · exact .inr h
      · exact .inl (Ne.symm (h c (by omega) (by omega)))
    · rcases h with h | h
      · exact .inl h
      · exact .inr fun d h1 h2 => h d (by omega) (by omega)

/-- The pixel that column `d` lands on takes the XOR of that column's bit. -/
theorem drawColumns_touched (row : Byte) (x0 : Nat) (y : Fin 32) (c k : Nat) (acc : Framebuffer × Bool) (d : Nat)
    (hd : c ≤ d ∧ d < c + k) (hk : c + k ≤ 64) :
    getPixel (drawColumns row x0 y c k acc).1 (wrapX (x0 + d)) y =
      (getPixel acc.1 (wrapX (x0 + d)) y ^^ spriteBit row d) := by
  induction k generalizing c acc with
  | zero => omega
  | succ k ih =>
    rw [drawColumns]
    by_cases hcd : c = d
    · subst hcd
      rw [drawColumns_untouched]
      · simp
      · exact .inr fun e h1 h2 he => by
          have := wrapX_injective (by omega) (by omega) he
          omega
    · rw [ih (c + 1) _ (by omega) (by omega), getPixel_setPixel_ne]
      exact .inl fun he => hcd (wrapX_injective (by omega) (by omega) he).symm

/-- A row reports a change exactly when one of its drawn bits is 1. -/
theorem drawColumns_flip (row : Byte) (x0 : Nat) (y : Fin 32) (c k : Nat) (acc : Framebuffer × Bool) :
    (drawColumns row x0 y c k acc).2 = true ↔ acc.2 = true ∨ ∃ d, c ≤ d ∧ d < c + k ∧ spriteBit row d = true := by
  induction k generalizing c acc with
  | zero =>
    simp only [drawColumns]
    exact ⟨.inl, fun h => h.elim id fun ⟨d, h1, h2, _⟩ => by omega⟩
  | succ k ih =>
    rw [drawColumns, ih]
    simp only [setPixel_flip, Bool.or_eq_true]
    constructor
    · rintro ((h | h) | ⟨d, h1, h2, h3⟩)
      · exact .inl h
      · exact .inr ⟨c, by omega, by omega, h⟩
      · exact .inr ⟨d, by omega, by omega, h3⟩
    · rintro (h | ⟨d, h1, h2, h3⟩)
      · exact .inl (.inl h)
      · by_cases hcd : c = d
        · exact .inl (.inr (hcd ▸ h3))
        · exact .inr ⟨d, by omega, by omega, h3⟩

/-- A byte is non-zero exactly when one of its eight columns is set. -/
theorem exists_spriteBit_iff (row : Byte) : (∃ d, d < 8 ∧ spriteBit row d = true) ↔ row ≠ 0 := by
  revert row; decide

/-- A pixel on no line that is drawn is left alone. -/
theorem drawRows_untouched (x0 y : Nat) (rows : List Byte) (acc : Framebuffer × Bool) (px : Fin 64) (py : Fin 32)
    (h : ∀ r, r < rows.length → wrapY (y + r) ≠ py) :
    getPixel (drawRows x0 y rows acc).1 px py = getPixel acc.1 px py := by
  induction rows generalizing y acc with
  | nil => rfl
  | cons row rows ih =>
    rw [drawRows, ih, drawColumns_untouched]
    · exact .inl (Ne.symm (h 0 (by simp)))
    · intro r hr
      have := h (r + 1) (by simpa using hr)
      rwa [show y + 1 + r = y + (r + 1) by omega]

/-- On the line of sprite row `r` a pixel is what drawing that one row makes of it. -/
theorem drawRows_line (x0 y : Nat) (rows : List Byte) (acc : Framebuffer × Bool) (px : Fin 64) (r : Nat)
    (hr : r < rows.length) (hl : rows.length ≤ 32) :
    ∃ acc' : Framebuffer × Bool, (∀ qx, getPixel acc'.1 qx (wrapY (y + r)) = getPixel acc.1 qx (wrapY (y + r))) ∧
      getPixel (drawRows x0 y rows acc).1 px (wrapY (y + r)) =
        getPixel (drawColumns rows[r] x0 (wrapY (y + r)) 0 8 acc').1 px (wrapY (y + r)) := by
  induction rows generalizing y acc r with
  | nil => simp at hr
  | cons row rows ih =>
    simp only [List.length_cons] at hr hl
    rw [drawRows]
    cases r with
    | zero =>
      refine ⟨acc, fun _ => rfl, ?_⟩
      rw [drawRows_untouched]
      · simp
      · intro q hq he
        have := wrapY_injective (y0 := y) (r := 1 + q) (q := 0) (by omega) (by omega)
          (by rw [← Nat.add_assoc]; simpa using he)
        omega
    | succ r =>
      obtain ⟨acc', h1, h2⟩ := ih (y + 1) (drawColumns row x0 (wrapY y) 0 8 acc) r (by omega) (by omega)
      rw [show y + 1 + r = y + (r + 1) by omega] at h1 h2
      refine ⟨acc', fun qx => ?_, by simpa using h2⟩
      rw [h1, drawColumns_untouched]
      exact .inl fun he => by
        have := wrapY_injective (y0 := y) (r := r + 1) (q := 0) (by omega) (by omega) (by simpa using he)
        omega

/-- A sprite reports a change exactly when one of its bytes is not zero, whatever the framebuffer held (R183(a)). -/
theorem drawRows_flip (x0 y : Nat) (rows : List Byte) (acc : Framebuffer × Bool) :
    (drawRows x0 y rows acc).2 = true ↔ acc.2 = true ∨ ∃ row ∈ rows, row ≠ 0 := by
  induction rows generalizing y acc with
  | nil => simp [drawRows]
  | cons row rows ih =>
    rw [drawRows, ih, drawColumns_flip]
    have := exists_spriteBit_iff row
    simp only [Nat.zero_le, true_and, Nat.zero_add, this, List.mem_cons, exists_eq_or_imp]
    tauto

/-- All that a draw can do. -/
theorem execDrw_cases (x y : Reg) (n : Nat) (s : State) :
    ((n = 0 ∨ s.index.toNat + n ≤ Config.memSize) ∧
      execDrw x y n s =
        .next (writeFlag
          (drawRows ((readReg s x).toNat % 64) ((readReg s y).toNat % 32)
            ((List.range n).map fun k => Memory.peek s.mem (s.index.toNat + k)) (s.fb, false)).2
          (s.setFb (drawRows ((readReg s x).toNat % 64) ((readReg s y).toNat % 32)
            ((List.range n).map fun k => Memory.peek s.mem (s.index.toNat + k)) (s.fb, false)).1))) ∨
    (n ≠ 0 ∧ Config.memSize < s.index.toNat + n ∧
      execDrw x y n s = .fault (.outOfBounds (max s.index.toNat Config.memSize))) := by
  unfold execDrw effectiveAddress
  rcases readBlock_cases s.mem (s.index.toNat + 0) n with ⟨h, e⟩ | ⟨hn, h, e⟩
  · exact .inl ⟨h, by rw [e]; rfl⟩
  · exact .inr ⟨hn, h, by rw [e]; rfl⟩

end Sys2Proof.Machine
end

