-- ==== Sys2Proof/Laws/PerInstr.lean ====
section
/-! SUPPORT. Statements made per instruction: the family FixedBits says that an instruction's encoding carries the fixed
bits of its own row of the opcode map (spec/30_encoding.md R96). -/

namespace Sys2Proof.Laws.FixedBits

/-- The row of R96 selects the word that the encoder makes. -/
def Statement (i : Instr) : Prop := (opcodeRow i).selects (encode i) = true

theorem selects_iff (base mask op : Word) : OpcodeRow.selects ⟨base, mask⟩ op = true ↔ op &&& mask = base := by
  simp [OpcodeRow.selects]

theorem selects_formatR {base : Word} (hb : base &&& 0xF00F#16 = base) (x y : Reg) :
    OpcodeRow.selects ⟨base, 0xF00F#16⟩ (formatR base x y) = true := by
  rw [selects_iff, formatR, or_and_mask, or_and_mask, hb, (putX_mask x).2.1, (putY_mask y).1]
  simp

theorem selects_formatI {base : Word} (hb : base &&& 0xF000#16 = base) (x : Reg) (nn : Byte) :
    OpcodeRow.selects ⟨base, 0xF000#16⟩ (formatI base x nn) = true := by
  rw [selects_iff, formatI, or_and_mask, or_and_mask, hb, (putX_mask x).2.2, setWidth_mask (by omega)]
  simp

theorem selects_formatA {base : Word} (hb : base &&& 0xF000#16 = base) (nnn : Addr12) :
    OpcodeRow.selects ⟨base, 0xF000#16⟩ (formatA base nnn) = true := by
  rw [selects_iff, formatA, or_and_mask, hb, setWidth_mask (by omega)]
  simp

theorem selects_formatF {base : Word} (hb : base &&& 0xF0FF#16 = base) (x : Reg) :
    OpcodeRow.selects ⟨base, 0xF0FF#16⟩ (formatF base x) = true := by
  rw [selects_iff, formatF, or_and_mask, hb, (putX_mask x).1]
  simp

theorem selects_formatD {base : Word} (hb : base &&& 0xF000#16 = base) (x y : Reg) (n : Nat) :
    OpcodeRow.selects ⟨base, 0xF000#16⟩ (formatD base x y n) = true := by
  rw [selects_iff, formatD, or_and_mask, or_and_mask, or_and_mask, hb, (putX_mask x).2.2, (putY_mask y).2,
    setWidth_mask (by omega)]
  simp

theorem cls : Statement .cls := by unfold Statement; decide
theorem ret : Statement .ret := by unfold Statement; decide
theorem jp (nnn : Addr12) : Statement (.jp nnn) := selects_formatA (by decide) nnn
theorem call (nnn : Addr12) : Statement (.call nnn) := selects_formatA (by decide) nnn
theorem seI (x : Reg) (nn : Byte) : Statement (.seI x nn) := selects_formatI (by decide) x nn
theorem sneI (x : Reg) (nn : Byte) : Statement (.sneI x nn) := selects_formatI (by decide) x nn
theorem seR (x y : Reg) : Statement (.seR x y) := selects_formatR (by decide) x y
theorem ldI (x : Reg) (nn : Byte) : Statement (.ldI x nn) := selects_formatI (by decide) x nn
theorem addI (x : Reg) (nn : Byte) : Statement (.addI x nn) := selects_formatI (by decide) x nn
theorem ldR (x y : Reg) : Statement (.ldR x y) := selects_formatR (by decide) x y
theorem orR (x y : Reg) : Statement (.orR x y) := selects_formatR (by decide) x y
theorem andR (x y : Reg) : Statement (.andR x y) := selects_formatR (by decide) x y
theorem xorR (x y : Reg) : Statement (.xorR x y) := selects_formatR (by decide) x y
theorem addR (x y : Reg) : Statement (.addR x y) := selects_formatR (by decide) x y
theorem sub (x y : Reg) : Statement (.sub x y) := selects_formatR (by decide) x y
theorem shr (x y : Reg) : Statement (.shr x y) := selects_formatR (by decide) x y
theorem subn (x y : Reg) : Statement (.subn x y) := selects_formatR (by decide) x y
theorem shl (x y : Reg) : Statement (.shl x y) := selects_formatR (by decide) x y
theorem sneR (x y : Reg) : Statement (.sneR x y) := selects_formatR (by decide) x y
theorem ldIdx (nnn : Addr12) : Statement (.ldIdx nnn) := selects_formatA (by decide) nnn
theorem jpV0 (nnn : Addr12) : Statement (.jpV0 nnn) := selects_formatA (by decide) nnn
theorem rnd (x : Reg) (nn : Byte) : Statement (.rnd x nn) := selects_formatI (by decide) x nn
theorem drw (x y : Reg) (n : Nat) : Statement (.drw x y n) := selects_formatD (by decide) x y n
theorem skp (x : Reg) : Statement (.skp x) := selects_formatF (by decide) x
theorem sknp (x : Reg) : Statement (.sknp x) := selects_formatF (by decide) x
theorem ldVxDt (x : Reg) : Statement (.ldVxDt x) := selects_formatF (by decide) x
theorem ldVxK (x : Reg) : Statement (.ldVxK x) := selects_formatF (by decide) x
theorem ldDtVx (x : Reg) : Statement (.ldDtVx x) := selects_formatF (by decide) x
theorem ldStVx (x : Reg) : Statement (.ldStVx x) := selects_formatF (by decide) x
theorem addIdx (x : Reg) : Statement (.addIdx x) := selects_formatF (by decide) x
theorem ldF (x : Reg) : Statement (.ldF x) := selects_formatF (by decide) x
theorem ldB (x : Reg) : Statement (.ldB x) := selects_formatF (by decide) x
theorem stRegs (x : Reg) : Statement (.stRegs x) := selects_formatF (by decide) x
theorem ldRegs (x : Reg) : Statement (.ldRegs x) := selects_formatF (by decide) x

end Sys2Proof.Laws.FixedBits
end

