-- ==== Sys2Proof/Laws/Step.lean ====
section
/-! SUPPORT. What one step can do: the events before it, the fetch, and the cases of the cycle. -/

namespace Sys2Proof.Machine

/-! ### Events -/

/-- Events reach the timers and the keys only (R71, R219). -/
theorem deliver_form (e : HostEvent) (s : State) :
    ∃ dt st ks, deliver e s = ((s.setDt dt).setSt st).setKeys ks := by
  cases e with
  | tick => exact ⟨tickTimer s.dt, tickTimer s.st, s.keys, rfl⟩
  | press k => exact ⟨s.dt, s.st, s.keys.set k true, rfl⟩
  | release k => exact ⟨s.dt, s.st, s.keys.set k false, rfl⟩

theorem deliverAll_form (es : List HostEvent) (s : State) :
    ∃ dt st ks, deliverAll es s = ((s.setDt dt).setSt st).setKeys ks := by
  induction es generalizing s with
  | nil => exact ⟨s.dt, s.st, s.keys, rfl⟩
  | cons e es ih =>
    obtain ⟨dt, st, ks, h⟩ := deliver_form e s
    obtain ⟨dt', st', ks', h'⟩ := ih (deliver e s)
    exact ⟨dt', st', ks', by rw [deliverAll, h', h]; rfl⟩

/-- What is due before a step reaches the timers and the keys, and is taken off the schedule. -/
theorem deliverDue_form (s : State) :
    ∃ dt st ks, deliverDue s = (((s.setSchedule s.schedule.tail).setDt dt).setSt st).setKeys ks := by
  rw [deliverDue]
  cases h : s.schedule with
  | nil => exact ⟨s.dt, s.st, s.keys, by
      show s = _
      simp only [List.tail_nil]
      rw [← h]; rfl⟩
  | cons es later =>
    obtain ⟨dt, st, ks, h'⟩ := deliverAll_form es (s.setSchedule later)
    exact ⟨dt, st, ks, h'⟩

@[simp] theorem deliverDue_v (s : State) : (deliverDue s).v = s.v := by
  obtain ⟨dt, st, ks, h⟩ := deliverDue_form s; simp [h]
@[simp] theorem deliverDue_index (s : State) : (deliverDue s).index = s.index := by
  obtain ⟨dt, st, ks, h⟩ := deliverDue_form s; simp [h]
@[simp] theorem deliverDue_mem (s : State) : (deliverDue s).mem = s.mem := by
  obtain ⟨dt, st, ks, h⟩ := deliverDue_form s; simp [h]
@[simp] theorem deliverDue_pc (s : State) : (deliverDue s).pc = s.pc := by
  obtain ⟨dt, st, ks, h⟩ := deliverDue_form s; simp [h]
@[simp] theorem deliverDue_stack (s : State) : (deliverDue s).stack = s.stack := by
  obtain ⟨dt, st, ks, h⟩ := deliverDue_form s; simp [h]
@[simp] theorem deliverDue_halted (s : State) : (deliverDue s).halted = s.halted := by
  obtain ⟨dt, st, ks, h⟩ := deliverDue_form s; simp [h]
@[simp] theorem deliverDue_waitReg (s : State) : (deliverDue s).waitReg = s.waitReg := by
  obtain ⟨dt, st, ks, h⟩ := deliverDue_form s; simp [h]
@[simp] theorem deliverDue_fb (s : State) : (deliverDue s).fb = s.fb := by
  obtain ⟨dt, st, ks, h⟩ := deliverDue_form s; simp [h]
@[simp] theorem deliverDue_fault (s : State) : (deliverDue s).fault = s.fault := by
  obtain ⟨dt, st, ks, h⟩ := deliverDue_form s; simp [h]
@[simp] theorem deliverDue_diag (s : State) : (deliverDue s).diag = s.diag := by
  obtain ⟨dt, st, ks, h⟩ := deliverDue_form s; simp [h]
@[simp] theorem deliverDue_draws (s : State) : (deliverDue s).draws = s.draws := by
  obtain ⟨dt, st, ks, h⟩ := deliverDue_form s; simp [h]
@[simp] theorem deliverDue_schedule (s : State) : (deliverDue s).schedule = s.schedule.tail := by
  obtain ⟨dt, st, ks, h⟩ := deliverDue_form s; simp [h]

/-! ### Fetch -/

/-- A fetch inside the address space answers the two bytes at pc, the first on top. -/
theorem fetch_ok {s : State} (h : s.pc.toNat + 1 < Config.memSize) :
    fetch s = .ok (wordOfBytes (Memory.peek s.mem s.pc.toNat) (Memory.peek s.mem (s.pc.toNat + 1))) := by
  unfold fetch
  rw [memRead_ok (by omega), memRead_ok h]

/-- A fetch faults for the first of its two addresses that is outside. -/
theorem fetch_error {s : State} (h : Config.memSize ≤ s.pc.toNat + 1) :
    fetch s = .error (.outOfBounds (max s.pc.toNat Config.memSize)) := by
  unfold fetch
  by_cases hp : s.pc.toNat < Config.memSize
  · rw [memRead_ok hp, memRead_error h]
    simp only [Except.error.injEq, Fault.outOfBounds.injEq]; omega
  · rw [memRead_error (by omega)]
    simp only [Except.error.injEq, Fault.outOfBounds.injEq]; omega

/-- The fetch looks at memory and pc only. -/
theorem fetch_congr {s t : State} (hm : s.mem = t.mem) (hp : s.pc = t.pc) : fetch s = fetch t := by
  unfold fetch; rw [hm, hp]

@[simp] theorem fetch_deliverDue (s : State) : fetch (deliverDue s) = fetch s :=
  fetch_congr (by simp) (by simp)

/-! ### The cases of a step -/

/-- All that a CPU step can do. -/
theorem cpuStep_cases (s : State) :
    (s.halted = true ∧ cpuStep s = .next ((haltedStep s).setDiag none)) ∨
    (s.halted = false ∧ ∃ k, fetch s = .error k ∧ cpuStep s = .fault k) ∨
    (s.halted = false ∧ ∃ op i, fetch s = .ok op ∧ decode op = .instr i ∧ cpuStep s = exec i (beginInstr s)) ∨
    (s.halted = false ∧ ∃ op op', fetch s = .ok op ∧ decode op = .unknownOpcode op' ∧
      cpuStep s = .next (reportUnknown op s)) := by
  unfold cpuStep
  cases hh : s.halted with
  | true => exact .inl ⟨rfl, rfl⟩
  | false =>
    cases hf : fetch s with
    | error k => exact .inr (.inl ⟨rfl, k, rfl, rfl⟩)
    | ok op =>
      cases hd : decode op with
      | instr i => exact .inr (.inr (.inl ⟨rfl, op, i, rfl, hd, by simp [orRaise, hd]⟩))
      | unknownOpcode op' => exact .inr (.inr (.inr ⟨rfl, op, op', rfl, hd, by simp [orRaise, hd]⟩))

theorem step_of_marked {s : State} {k : Fault} (h : s.fault = some k) : step s = .fault k := by
  simp [step, takeStep, h, raise]

theorem step_of_unmarked {s : State} (h : s.fault = none) : step s = cpuStep (deliverDue s) := by
  simp [step, takeStep, h]

/-- The halted step changes one register and `halted`, or nothing. -/
theorem haltedStep_cases (s : State) :
    (∃ k, pollAnyPressed s = some k ∧ haltedStep s = (writeReg s.waitReg (keyByte k) s).setHalted false) ∨
    (pollAnyPressed s = none ∧ haltedStep s = s) := by
  unfold haltedStep
  cases pollAnyPressed s with
  | some k => exact .inl ⟨k, rfl, rfl⟩
  | none => exact .inr ⟨rfl, rfl⟩

/-! ### Placing a word -/

theorem fetchAddress_lt (s : State) : fetchAddress s + 1 < Config.memSize := by
  unfold fetchAddress; split
  · assumption
  · decide

/-- A placed word is what the next step fetches. -/
theorem fetch_placeWord (op : Word) (s : State) : fetch (placeWord op s) = .ok op := by
  have ha := fetchAddress_lt s
  have hpc : (placeWord op s).pc.toNat = fetchAddress s := by
    have hlt : fetchAddress s < 2 ^ 16 := lt_trans (Nat.lt_of_succ_lt ha) (by decide)
    simp only [placeWord, State.setFault_pc, State.setHalted_pc, State.setPc_pc, BitVec.toNat_ofNat]
    exact Nat.mod_eq_of_lt hlt
  rw [fetch_ok (by rw [hpc]; exact ha), hpc]
  simp only [placeWord, State.setFault_mem, State.setHalted_mem, State.setPc_mem, State.setMem_mem,
    Memory.peek_poke_self]
  rw [Memory.peek_poke_ne _ _ (by omega), Memory.peek_poke_self, wordOfBytes_split]

/-- The step after `withFetchWord` runs the placed instruction, from any state. -/
theorem step_withFetchWord (s : State) (nbits w : Nat) {i : Instr} (h : decode (wordOfTable nbits w) = .instr i) :
    step (s.withFetchWord nbits w) = exec i (beginInstr (deliverDue (s.withFetchWord nbits w))) := by
  have hf : (s.withFetchWord nbits w).fault = none := rfl
  have hh : (deliverDue (s.withFetchWord nbits w)).halted = false := by simp; rfl
  have hw : fetch (deliverDue (s.withFetchWord nbits w)) = .ok (wordOfTable nbits w) := by
    rw [fetch_deliverDue]; exact fetch_placeWord _ _
  rw [step_of_unmarked hf]
  unfold cpuStep
  rw [hh, hw]
  simp [orRaise, h]

end Sys2Proof.Machine
end

