-- ==== Sys2Proof/Tests/Slice0.lean ====
section
/-! SUPPORT. The model's own tests: well-formedness, decoding of words written from the spec's encodings, one step of
each instruction against the vectors of spec/95_test_vectors.md (their ids stand in the comments), and a witness for the
hypotheses of every statement that has some. -/

namespace Sys2Proof.Tests

open Sys2Proof.Machine Sys2Proof.Claims

/-! ### Helpers -/

/-- The reset state with some registers set, and I. -/
def regs (l : List (Reg × Byte)) (i : Word := 0) : State :=
  (l.foldl (fun s p => writeReg p.1 p.2 s) State.reset).setIndex i

/-- The reset state with bytes placed from an address. -/
def withBytes (a : Nat) (bs : List Byte) (s : State) : State := s.setMem (Memory.pokeBytes s.mem a bs)

/-- The reset state with keys down. -/
def keysDown (l : List Key) (s : State) : State := s.setKeys (l.foldl (fun (ks : Vector Bool 16) (k : Key) => ks.set k true) s.keys)

/-- What a result's next state shows, if there is one. -/
def see {α : Type} (r : Result) (f : State → α) : Option α :=
  match r with
  | .next t => some (f t)
  | .fault _ => none
  | .refused _ => none

/-- A result's fault, if it is one. -/
def seeFault (r : Result) : Option Fault :=
  match r with
  | .next _ => none
  | .fault k => some k
  | .refused _ => none

/-- Sixteen return addresses. -/
def fullStack : List Word := List.replicate 16 0x202

/-! ### Well-formedness -/

theorem test_wellFormed_row_count_15 : (Instr.drw 0 0 15).wellFormed = true := by decide
theorem test_illFormed_row_count_16 : (Instr.drw 0 0 16).wellFormed = false := by decide
theorem test_rom_3584_accepted : romWellFormed (List.replicate 3584 0) = true := by
  rw [romWellFormed, List.length_replicate]; decide
theorem test_rom_3585_refused : romWellFormed (List.replicate 3585 0) = false := by
  rw [romWellFormed, List.length_replicate]; decide

/-! ### Decoding: every pattern of R96 with its fields filled in by hand -/

theorem test_decode_cls : decode 0b0000000011100000#16 = .instr .cls := by decide
theorem test_decode_ret : decode 0b0000000011101110#16 = .instr .ret := by decide
theorem test_decode_jp : decode 0b0001101010111100#16 = .instr (.jp 0xABC) := by decide
theorem test_decode_call : decode 0b0010001000010000#16 = .instr (.call 0x210) := by decide
theorem test_decode_seI : decode 0b0011000101000010#16 = .instr (.seI 1 0x42) := by decide
theorem test_decode_sneI : decode 0b0100101000000111#16 = .instr (.sneI 10 7) := by decide
theorem test_decode_seR : decode 0b0101000100100000#16 = .instr (.seR 1 2) := by decide
theorem test_decode_ldI : decode 0b0110101011111111#16 = .instr (.ldI 10 0xFF) := by decide
theorem test_decode_addI : decode 0b0111000111111111#16 = .instr (.addI 1 0xFF) := by decide
theorem test_decode_ldR : decode 0b1000000100100000#16 = .instr (.ldR 1 2) := by decide
theorem test_decode_or : decode 0b1000000100100001#16 = .instr (.orR 1 2) := by decide
theorem test_decode_and : decode 0b1000000100100010#16 = .instr (.andR 1 2) := by decide
theorem test_decode_xor : decode 0b1000000100100011#16 = .instr (.xorR 1 2) := by decide
theorem test_decode_addR : decode 0b1000000000010100#16 = .instr (.addR 0 1) := by decide
theorem test_decode_sub : decode 0b1000000100100101#16 = .instr (.sub 1 2) := by decide
theorem test_decode_shr : decode 0b1000000100100110#16 = .instr (.shr 1 2) := by decide
theorem test_decode_subn : decode 0b1000000100100111#16 = .instr (.subn 1 2) := by decide
theorem test_decode_shl : decode 0b1000000100101110#16 = .instr (.shl 1 2) := by decide
theorem test_decode_sneR : decode 0b1001000100100000#16 = .instr (.sneR 1 2) := by decide
theorem test_decode_ldIdx : decode 0b1010001100000000#16 = .instr (.ldIdx 0x300) := by decide
theorem test_decode_jpV0 : decode 0b1011001100000000#16 = .instr (.jpV0 0x300) := by decide
theorem test_decode_rnd : decode 0b1100000100001111#16 = .instr (.rnd 1 0x0F) := by decide
theorem test_decode_drw : decode 0b1101000000010010#16 = .instr (.drw 0 1 2) := by decide
theorem test_decode_skp : decode 0b1110000110011110#16 = .instr (.skp 1) := by decide
theorem test_decode_sknp : decode 0b1110000110100001#16 = .instr (.sknp 1) := by decide
theorem test_decode_ldVxDt : decode 0b1111001000000111#16 = .instr (.ldVxDt 2) := by decide
theorem test_decode_ldVxK : decode 0b1111000100001010#16 = .instr (.ldVxK 1) := by decide
theorem test_decode_ldDtVx : decode 0b1111000100010101#16 = .instr (.ldDtVx 1) := by decide
theorem test_decode_ldStVx : decode 0b1111000100011000#16 = .instr (.ldStVx 1) := by decide
theorem test_decode_addIdx : decode 0b1111000100011110#16 = .instr (.addIdx 1) := by decide
theorem test_decode_ldF : decode 0b1111000000101001#16 = .instr (.ldF 0) := by decide
theorem test_decode_ldB : decode 0b1111000000110011#16 = .instr (.ldB 0) := by decide
theorem test_decode_stRegs : decode 0b1111001001010101#16 = .instr (.stRegs 2) := by decide
theorem test_decode_ldRegs : decode 0b1111001001100101#16 = .instr (.ldRegs 2) := by decide

/-- The unknown opcodes of section 2.6. -/
theorem test_decode_unknown :
    [0x0000#16, 0x01E0#16, 0x00E1#16, 0x00FD#16, 0x5121#16, 0x8128#16, 0x812F#16, 0x9121#16, 0xE19F#16, 0xF1FF#16,
      0xF075#16].all (fun op => decode op == .unknownOpcode op) = true := by decide
theorem test_decode_truncated : decodeBytes [0x12#8] = .truncated [0x12#8] := by decide
theorem test_rows_are_34 : opcodeRows.length = 34 := by decide
/-- R94: the patterns are pairwise disjoint: no word fits two rows. -/
theorem test_rows_disjoint :
    opcodeRows.Pairwise (fun r q => (r.pattern ^^^ q.pattern) &&& (r.mask &&& q.mask) ≠ 0) := by decide
theorem test_table_word : decodeTableWord 16 0x8014 = some (.addR 0 1) := by decide

/-! ### Control flow (section 2.1) -/

/-- T1 -/
theorem test_ret_pops : see (exec .ret ((State.reset.setPc 0x302).setStack [0x206])) (fun t => (t.pc, t.stack)) =
    some (0x206, []) := by decide
/-- T2 -/
theorem test_ret_empty : seeFault (exec .ret (State.reset.setPc 0x302)) = some (.stackUnderflow 0x300) := by decide
/-- T3 -/
theorem test_jp : see (exec (.jp 0xABC) State.reset) State.pc = some 0xABC := by decide
/-- T5 -/
theorem test_call : see (exec (.call 0x210) (State.reset.setPc 0x206)) (fun t => (t.pc, t.stack)) =
    some (0x210, [0x206]) := by decide
/-- T6 -/
theorem test_call_full : seeFault (exec (.call 0x300) ((State.reset.setPc 0x202).setStack fullStack)) =
    some (.stackOverflow 0x200) := by decide
/-- T8 -/
theorem test_jpV0_not_reduced : see (exec (.jpV0 0xFFF) (regs [(0, 0xFF)])) State.pc = some 0x10FE := by decide
/-- T9, T10 -/
theorem test_seI : (see (exec (.seI 1 0x42) (regs [(1, 0x42)])) State.pc, see (exec (.seI 1 0x42) (regs [(1, 0x43)])) State.pc) =
    (some 0x202, some 0x200) := by decide
/-- T11, T12 -/
theorem test_sneI : (see (exec (.sneI 1 0x42) (regs [(1, 0x42)])) State.pc, see (exec (.sneI 1 0x42) (regs [(1, 0x43)])) State.pc) =
    (some 0x200, some 0x202) := by decide
/-- T13, T14 -/
theorem test_seR : (see (exec (.seR 1 2) (regs [(1, 9), (2, 9)])) State.pc, see (exec (.seR 1 2) (regs [(1, 9), (2, 8)])) State.pc) =
    (some 0x202, some 0x200) := by decide
/-- T16, T17 -/
theorem test_sneR : (see (exec (.sneR 1 2) (regs [(1, 9), (2, 8)])) State.pc, see (exec (.sneR 1 2) (regs [(1, 9), (2, 9)])) State.pc) =
    (some 0x202, some 0x200) := by decide

/-! ### Load, arithmetic, logic, random (section 2.2); each shows (V1 or the destination, VF) -/

/-- A2 -/
theorem test_ldI_vf : see (exec (.ldI 15 0x12) State.reset) (fun t => t.v[15]) = some 0x12 := by decide
/-- A4 -/
theorem test_addI_wraps : see (exec (.addI 1 1) (regs [(1, 0xFF), (15, 0)])) (fun t => (t.v[1], t.v[15])) = some (0, 0) := by
  decide
/-- A3 -/
theorem test_addI_keeps_vf : see (exec (.addI 1 0xFF) (regs [(1, 5), (15, 1)])) (fun t => (t.v[1], t.v[15])) = some (4, 1) := by
  decide
/-- A6 -/
theorem test_ldR : see (exec (.ldR 1 2) (regs [(1, 1), (2, 0x7E)])) (fun t => (t.v[1], t.v[2])) = some (0x7E, 0x7E) := by decide
/-- A7 -/
theorem test_or : see (exec (.orR 1 2) (regs [(1, 0x0F), (2, 0xF0), (15, 1)])) (fun t => (t.v[1], t.v[15])) =
    some (0xFF, 1) := by decide
/-- A8 -/
theorem test_and : see (exec (.andR 1 2) (regs [(1, 0x3C), (2, 0x0F), (15, 1)])) (fun t => (t.v[1], t.v[15])) =
    some (0x0C, 1) := by decide
/-- A9 -/
theorem test_xor : see (exec (.xorR 1 2) (regs [(1, 0xFF), (2, 0x0F), (15, 1)])) (fun t => (t.v[1], t.v[15])) =
    some (0xF0, 1) := by decide
/-- A13: 255 is not above 255; A12: the sum 256 carries -/
theorem test_addR_carry_edge :
    (see (exec (.addR 0 1) (regs [(0, 0xFF), (1, 0), (15, 1)])) (fun t => (t.v[0], t.v[15])),
      see (exec (.addR 0 1) (regs [(0, 0xFF), (1, 1)])) (fun t => (t.v[0], t.v[15]))) =
    (some (0xFF, 0), some (0, 1)) := by decide
/-- A15, A16: with X = F the carry stays; with Y = F the old VF is added -/
theorem test_addR_vf :
    (see (exec (.addR 15 1) (regs [(15, 0xF0), (1, 0x20)])) (fun t => t.v[15]),
      see (exec (.addR 1 15) (regs [(1, 0xFF), (15, 1)])) (fun t => (t.v[1], t.v[15]))) =
    (some 1, some (0, 1)) := by decide
/-- A18, A19 -/
theorem test_sub_borrow :
    (see (exec (.sub 1 2) (regs [(1, 3), (2, 5), (15, 1)])) (fun t => (t.v[1], t.v[15])),
      see (exec (.sub 1 2) (regs [(1, 5), (2, 5)])) (fun t => (t.v[1], t.v[15]))) =
    (some (0xFE, 0), some (0, 1)) := by decide
/-- A21, A23: with X = F the difference stays; with Y = F the old VF is subtracted -/
theorem test_sub_vf :
    (see (exec (.sub 15 1) (regs [(15, 5), (1, 3)])) (fun t => t.v[15]),
      see (exec (.sub 1 15) (regs [(1, 5), (15, 1)])) (fun t => (t.v[1], t.v[15]))) =
    (some 2, some (4, 1)) := by decide
/-- A25: Y is ignored -/
theorem test_shr : see (exec (.shr 1 2) (regs [(1, 4), (2, 0xFF), (15, 1)])) (fun t => (t.v[1], t.v[2], t.v[15])) =
    some (2, 0xFF, 0) := by decide
/-- A27 -/
theorem test_shr_vf : see (exec (.shr 15 0) (regs [(15, 3)])) (fun t => t.v[15]) = some 1 := by decide
/-- A28, A29 -/
theorem test_subn :
    (see (exec (.subn 1 2) (regs [(1, 3), (2, 5)])) (fun t => (t.v[1], t.v[15])),
      see (exec (.subn 1 2) (regs [(1, 5), (2, 3), (15, 1)])) (fun t => (t.v[1], t.v[15]))) =
    (some (2, 1), some (0xFE, 0)) := by decide
/-- A31 -/
theorem test_subn_vf : see (exec (.subn 15 1) (regs [(15, 3), (1, 5)])) (fun t => t.v[15]) = some 2 := by decide
/-- A32 -/
theorem test_shl : see (exec (.shl 1 0) (regs [(1, 0x81)])) (fun t => (t.v[1], t.v[15])) = some (2, 1) := by decide
/-- A35 -/
theorem test_shl_vf : see (exec (.shl 15 0) (regs [(15, 0xC1)])) (fun t => t.v[15]) = some 0x82 := by decide
/-- A37: NN = 0 gives 0 whatever the draw -/
theorem test_rnd_zero : see (exec (.rnd 1 0) (regs [(1, 9)])) (fun t => (t.v[1], t.draws)) = some (0, 1) := by
  simp [see, exec, execRnd, writeReg, regs, State.reset]
/-- A38: NN = 0xFF gives the draw -/
theorem test_rnd_all : see (exec (.rnd 1 0xFF) State.reset) (fun t => t.v[1]) = some (Config.randomByte 0) := by
  have h : ∀ b : Byte, 255#8 &&& b = b := by decide
  simp [see, exec, execRnd, writeReg, State.reset, h]

/-! ### Index and memory (section 2.3) -/

/-- I1 -/
theorem test_ldIdx : see (exec (.ldIdx 0xFFF) State.reset) State.index = some 0xFFF := by decide
/-- I5 -/
theorem test_addIdx_wraps : see (exec (.addIdx 1) (regs [(1, 0xFF)] 0xF01)) (fun t => (t.index, t.v[15])) = some (0, 1) := by
  decide
/-- I6: the old VF is added -/
theorem test_addIdx_vf : see (exec (.addIdx 15) (regs [(15, 2)] 0xFFE)) (fun t => (t.index, t.v[15])) = some (0, 1) := by decide
/-- I8 -/
theorem test_ldF_whole_byte : see (exec (.ldF 0) (regs [(0, 0xFF)])) State.index = some 0x4FB := by decide
/-- I10 -/
theorem test_ldB : see (exec (.ldB 0) (regs [(0, 254)] 0x300)) State.mem = some [(0x300, 2), (0x301, 5), (0x302, 4)] := by decide
/-- I13, I14 -/
theorem test_ldB_top :
    (see (exec (.ldB 0) (regs [(0, 100)] 4093)) State.mem, seeFault (exec (.ldB 0) (regs [(0, 123)] 4094))) =
    (some [(4093, 1)], some (.outOfBounds 4096)) := by decide
/-- I15 -/
theorem test_stRegs : see (exec (.stRegs 2) (regs [(0, 1), (1, 2), (2, 3), (3, 4)] 0x400)) (fun t => (t.mem, t.index)) =
    some ([(0x400, 1), (0x401, 2), (0x402, 3)], 0x400) := by decide
/-- I16, I17 -/
theorem test_stRegs_top :
    (see (exec (.stRegs 0) (regs [(0, 0xAB)] 4095)) State.mem,
      seeFault (exec (.stRegs 1) (regs [(0, 0xAB), (1, 0xCD)] 4095))) =
    (some [(4095, 0xAB)], some (.outOfBounds 4096)) := by decide
/-- I18 -/
theorem test_ldRegs : see (exec (.ldRegs 2) (withBytes 0x300 [2, 5, 4, 9] (regs [] 0x300)))
    (fun t => (t.v[0], t.v[1], t.v[2], t.v[3])) = some (2, 5, 4, 0) := by decide
/-- I19, I20 -/
theorem test_ldRegs_top :
    (seeFault (exec (.ldRegs 1) (withBytes 4095 [7] (regs [] 4095))),
      see (exec (.ldRegs 0) (withBytes 4095 [7] (regs [] 4095))) (fun t => t.v[0])) =
    (some (.outOfBounds 4096), some 7) := by decide

/-! ### Display (section 2.4) -/

/-- G1 -/
theorem test_cls : see (exec .cls (State.reset.setFb (setPixel clearPixels 63 31 true).1)) (fun t => getPixel t.fb 63 31) =
    some false := by decide
/-- G6: wrapped at both edges -/
theorem test_drw_wraps :
    see (exec (.drw 0 1 2) (withBytes 0x300 [0xC3, 0x81] (regs [(0, 62), (1, 31)] 0x300)))
      (fun t => ((getPixel t.fb 63 31, getPixel t.fb 4 31, getPixel t.fb 62 0, getPixel t.fb 5 0), getPixel t.fb 0 31, t.v[15])) =
    some ((true, true, true, true), false, 1) := by decide
/-- G5, G9 -/
theorem test_drw_bounds :
    (see (exec (.drw 0 1 0) (regs [(15, 1)] 0xFFF)) (fun t => t.v[15]),
      seeFault (exec (.drw 0 1 2) (withBytes 4095 [0xFF] (regs [] 4095)))) =
    (some 0, some (.outOfBounds 4096)) := by decide

/-! ### Keypad, timers, events (section 2.5) -/

/-- K1, K2 -/
theorem test_skp :
    (see (exec (.skp 1) (keysDown [7] (regs [(1, 7)]))) State.pc, see (exec (.skp 1) (regs [(1, 7)])) State.pc) =
    (some 0x202, some 0x200) := by decide
/-- K5 -/
theorem test_skp_bad_key : seeFault (exec (.skp 1) (keysDown [0] (regs [(1, 0x10)]))) = some (.badKeyIndex 0x10) := by decide
/-- K3, K4 -/
theorem test_sknp :
    (see (exec (.sknp 1) (keysDown [7] (regs [(1, 7)]))) State.pc, see (exec (.sknp 1) (regs [(1, 7)])) State.pc) =
    (some 0x200, some 0x202) := by decide
/-- K6 -/
theorem test_sknp_bad_key : seeFault (exec (.sknp 1) (regs [(1, 0xFF)])) = some (.badKeyIndex 0xFF) := by decide
/-- K5 and K6 under the two other policies: mask4 skips both, not_pressed skips K6 only -/
theorem test_other_key_policies :
    (see (keySkip .mask4 true 1 (keysDown [0] (regs [(1, 0x10)]))) State.pc, see (keySkip .mask4 false 1 (regs [(1, 0xFF)])) State.pc,
      see (keySkip .notPressed true 1 (keysDown [0] (regs [(1, 0x10)]))) State.pc,
      see (keySkip .notPressed false 1 (regs [(1, 0xFF)])) State.pc) =
    (some 0x202, some 0x202, some 0x200, some 0x202) := by decide
/-- K7 -/
theorem test_ldVxK : see (exec (.ldVxK 1) (keysDown [5] State.reset)) (fun t => (t.halted, t.waitReg, t.v[1])) =
    some (true, 1, 0) := by decide
/-- K8 -/
theorem test_halted_step_takes_lowest_key :
    see (step (keysDown [5, 9] ((State.reset.setHalted true).setWaitReg 1))) (fun t => (t.v[1], t.halted, t.pc)) =
    some (5, false, 0x200) := by decide
/-- K10 -/
theorem test_ldVxDt : see (exec (.ldVxDt 2) (State.reset.setDt 2)) (fun t => t.v[2]) = some 2 := by decide
/-- K11 -/
theorem test_ldDtVx : see (exec (.ldDtVx 1) (regs [(1, 3)])) (fun t => (t.dt, t.st)) = some (3, 0) := by decide
/-- K12 -/
theorem test_ldStVx : see (exec (.ldStVx 1) (regs [(1, 16)])) (fun t => (t.dt, t.st)) = some (0, 16) := by decide
/-- K15, K16 -/
theorem test_tick :
    ((deliver .tick ((State.reset.setDt 0).setSt 1)).dt, (deliver .tick ((State.reset.setDt 0).setSt 1)).st,
      (deliver .tick (State.reset.setDt 255)).dt) = (0, 0, 254) := by decide
/-- REF_LOOP delivers nothing before the first CPU step and one TICK before the second. -/
theorem test_refLoop : refLoop 1 = [[], [.tick]] := by decide

/-! ### Cycle (sections 2.6, 2.7) -/

/-- X1, X4, X5: a fetch at the top, at an odd pc, and high byte first -/
theorem test_fetch :
    (see (step (withBytes 4094 [0x60, 0x01] (State.reset.setPc 4094))) (fun t => (t.v[0], t.pc)),
      see (step (withBytes 0x201 [0x6A, 0x55] (State.reset.setPc 0x201))) (fun t => (t.v[10], t.pc)),
      see (step (withBytes 0x200 [0x12, 0x34] State.reset)) (fun t => (t.v[0], t.pc))) =
    (some (1, 0x1000), some (0x55, 0x203), some (0, 0x234)) := by decide
/-- X2, X3 -/
theorem test_fetch_faults :
    (seeFault (step (State.reset.setPc 4095)), (afterStep (State.reset.setPc 4095)).pc, seeFault (step (State.reset.setPc 4096))) =
    (some (.outOfBounds 4096), 4095, some (.outOfBounds 4096)) := by decide
/-- P6: zero-filled memory is a stream of reports -/
theorem test_unknown_reports : see (step State.reset) (fun t => (t.pc, t.diag)) = some (0x202, some (.unknownOpcode 0x0000)) := by
  decide
/-- R222: a fault of the instruction itself leaves pc past it and sets the mark -/
theorem test_fault_leaves :
    ((afterStep (withBytes 0x200 [0x00, 0xEE] State.reset)).pc, (afterStep (withBytes 0x200 [0x00, 0xEE] State.reset)).fault) =
    (0x202, some (.stackUnderflow 0x200)) := by decide
/-- An instruction placed by `withFetchWord` runs as the very next step. -/
theorem test_withFetchWord : see (step (State.reset.withFetchWord 16 0x6A55)) (fun t => (t.v[10], t.pc)) = some (0x55, 0x202) := by
  decide
/-- Events that are due come before the CPU step: F207 reads the timer after the tick. -/
theorem test_schedule_before_step :
    see (step (((State.reset.withFetchWord 16 0xF207).setDt 3).setSchedule [[.tick]])) (fun t => (t.v[2], t.schedule)) =
    some (2, []) := by decide
/-- The font table: glyph A is at 0x32. -/
theorem test_font_glyph_A : ((List.range 5).map fun k => Memory.peek State.reset.mem (0x32 + k)) = [0xF0, 0x90, 0xF0, 0x90, 0x90] := by
  decide
/-- Writing what an address reads as at reset lists nothing. -/
theorem test_poke_canonical : Memory.poke (Memory.poke [] 0x300 7) 0x300 0 = [] := by decide

/-! ### Witnesses: a concrete state and operands that meet the hypotheses of a statement together. The tests above
show the conclusions on like states. -/

theorem witness_LaunchLoadsTheRomOrRefuses :
    (List.replicate 3584 (0 : Byte)).length ≤ 3584 ∧ 3584 < (List.replicate 3585 (0 : Byte)).length := by
  rw [List.length_replicate, List.length_replicate]; decide

/-- A bounded state whose step is a next state: at the edge of its bounds, about to return. -/
def boundedReturning : State := withBytes 4094 [0x00, 0xEE] (((State.reset.setPc 4094).setStack [4096]).setIndex 0xFFF)

theorem boundedReturning_bounded : Bounded boundedReturning where
  index_le := by decide
  pc_le := by decide
  stack_entries := by
    intro e he
    rw [show boundedReturning.stack = [4096] from rfl, List.mem_singleton] at he
    rw [he]
    exact ⟨by decide, by decide⟩
  stack_length := by decide
  mem_wf := by decide

theorem boundedReturning_steps : see (step boundedReturning) State.pc = some 4096 := by decide

theorem witness_StepKeepsBounded : Bounded boundedReturning ∧ see (step boundedReturning) State.pc = some 4096 :=
  ⟨boundedReturning_bounded, boundedReturning_steps⟩

theorem witness_EveryRunOfEveryRomStaysBounded :
    ∃ s t, launch [0x60, 0x05] = .next s ∧ Reaches 1 (s.setSchedule [[.press 3, .tick]]) t ∧ readReg t 0 = 5 :=
  ⟨_, _, rfl, rfl, by decide⟩

theorem witness_CheckedByteAccess :
    (memRead [] 4095).toOption = some 0 ∧ (memRead [] 4096).toOption = none ∧
    (memWrite [] 4095 7).toOption = some [(4095, 7)] ∧ (memWrite [] 4096 7).toOption = none := by decide

theorem witness_BlockWritesKeepCanonicalMemory :
    Memory.wf [(0x300, 1)] = true ∧ (writeBlock [(0x300, 1)] 4094 [8, 9]).toOption = some [(0x300, 1), (4094, 8), (4095, 9)] := by
  decide

theorem witness_CanonicalMemoriesThatReadAlikeAreEqual :
    Memory.wf (Memory.poke [] 0x300 7) = true ∧ Memory.wf [(0x300, 7)] = true ∧
    ∀ a, memRead (Memory.poke [] 0x300 7) a = memRead [(0x300, 7)] a :=
  ⟨by decide, by decide, fun _ => rfl⟩

theorem witness_FetchIsBigEndian : (State.reset.setPc 4094).pc.toNat ≤ 4094 := by decide

theorem witness_FetchBeyondMemoryFaults :
    (State.reset.setPc 4095).fault = none ∧ (State.reset.setPc 4095).halted = false ∧ 4094 < (State.reset.setPc 4095).pc.toNat := by
  decide

theorem witness_StoredInstructionIsFetched :
    1 ≤ (1 : Reg).val ∧ idx (regs [(0, 0x12), (1, 8)] 4094) + (1 : Reg).val ≤ 4095 ∧
    see (exec (.stRegs 1) (regs [(0, 0x12), (1, 8)] 4094)) (fun t => (fetch (t.setPc 4094)).toOption) = some (some 0x1208) := by
  decide

theorem witness_DecodeOfEncode : (Instr.drw 15 15 15).wellFormed = true ∧ encode (.drw 15 15 15) = 0xDFFF#16 := by decide

theorem witness_EncodeOfDecode : decode 0x81F6#16 = .instr (.shr 1 15) := by decide

theorem witness_StepRunsDecodedInstruction :
    let s := withBytes 4094 [0x60, 0x01] (State.reset.setPc 4094)
    s.fault = none ∧ s.halted = false ∧ (memRead s.mem s.pc.toNat).toOption = some 0x60 ∧
    (memRead s.mem (s.pc.toNat + 1)).toOption = some 0x01 ∧ decode (wordOfBytes 0x60 0x01) = .instr (.ldI 0 1) := by decide

theorem witness_UnknownOpcodeOnlyAdvancesPc :
    let s := State.reset
    s.fault = none ∧ s.halted = false ∧ (memRead s.mem s.pc.toNat).toOption = some 0 ∧
    (memRead s.mem (s.pc.toNat + 1)).toOption = some 0 ∧ decode (wordOfBytes 0 0) = .unknownOpcode (wordOfBytes 0 0) := by decide

theorem witness_DueEventsReachOnlyTimersAndKeys :
    let s := (State.reset.setDt 1).setSchedule [[.tick, .press 15, .tick], [.release 15]]
    (deliverDue s).dt = 0 ∧ isPressed (deliverDue s) 15 = true ∧ (deliverDue s).schedule = [[.release 15]] ∧
    (deliverDue State.reset).schedule = [] := by decide

theorem witness_HaltedStepWaitsForAKey :
    let s := (State.reset.setHalted true).setWaitReg 15
    s.fault = none ∧ s.halted = true ∧ (∀ k, isPressed (deliverDue s) k = false) ∧
    isPressed (deliverDue (keysDown [15] s)) 15 = true ∧
    ∀ j : Key, j < 15 → isPressed (deliverDue (keysDown [15] s)) j = false := by decide

theorem witness_WaitLastsWithoutKeys :
    let s := (State.reset.setHalted true).setSchedule [[.tick, .release 3]]
    s.fault = none ∧ s.halted = true ∧ (∀ k, isPressed s k = false) ∧ ∀ es ∈ s.schedule, ∀ k, HostEvent.press k ∉ es := by decide

theorem witness_FaultedMachineTakesNoStep : (recordFault (.outOfBounds 4096) State.reset).fault = some (.outOfBounds 4096) := by
  decide

theorem witness_FaultLeavesNoPartialEffect :
    (State.reset.setPc 4095).fault = none ∧ seeFault (step (State.reset.setPc 4095)) = some (.outOfBounds 4096) ∧
    seeFault (step (withBytes 4094 [0x00, 0xEE] (State.reset.setPc 4094))) = some (.stackUnderflow 4094) := by decide

theorem witness_InstructionsRaiseExactlyTheirFault :
    seeFault (exec (.drw 0 0 1) (regs [] 4096)) = some (.outOfBounds 4096) ∧ seeFault (exec (.drw 0 0 1) (regs [] 4095)) = none := by
  decide

theorem witness_SelfJumpIsAFixedPoint : AtEnd (withBytes 0x200 [0x12, 0x00] State.reset) :=
  ⟨rfl, rfl, 0x200, rfl, rfl⟩

theorem witness_RegistersOutsideDestinationsKeep :
    see (exec (.ldRegs 1) (withBytes 0x300 [2, 5] (regs [(2, 9)] 0x300))) (fun t => (t.v[1], t.v[2])) = some (5, 9) ∧
    (2 : Reg) ∉ destinations (.ldRegs 1) := by decide

theorem witness_EveryInstructionLeavesPcAsListed : see (exec (.jpV0 0xFFF) (regs [(0, 1)])) State.pc = some 0x1000 := by decide

theorem witness_StateIsWrittenByItsInstructionsOnly : see (exec (.ldVxK 3) State.reset) State.waitReg = some 3 := by decide

theorem witness_JumpsSetPc :
    4094 < (0xFFF : Addr12).toNat ∧ 4094 < (0xFFF : Addr12).toNat + reg State.reset 0 ∧
    (State.reset.setPc 0x206).pc.toNat = (0x204 : Addr12).toNat + 2 := by decide

theorem witness_CompareAndSkip :
    (State.reset.setPc 0x202).pc = 0x200 + 2 ∧ (State.reset.setPc 4096).pc = 4094 + 2 ∧ (4094 : Word).toNat = 4094 ∧
    (State.reset.setPc 4098).pc = (4094 : Word) + 4 := by decide

theorem witness_CallPushesReturnAddress :
    (State.reset.setStack (List.replicate 15 0x202)).stack.length < 16 ∧ (State.reset.setStack fullStack).stack.length = 16 := by
  decide

theorem witness_ReturnPopsIntoPc :
    (State.reset.setStack [0x206, 0x300]).stack = 0x206 :: [0x300] ∧ State.reset.stack = [] := by decide

theorem witness_CallThenReturnComesBack :
    let s := withBytes 0x200 [0x22, 0x10] (withBytes 0x210 [0x00, 0xEE] State.reset)
    s.fault = none ∧ s.halted = false ∧ s.stack.length < 16 ∧ (fetch s).toOption = some (encode (.call 0x210)) ∧
    (memRead s.mem 0x210).toOption = some 0x00 ∧ (memRead s.mem 0x211).toOption = some 0xEE := by decide

theorem witness_AddWritesSumThenCarry : (1 : Reg) ≠ 15 := by decide
theorem witness_SubtractWritesBorrowThenDifference : (14 : Reg) ≠ 15 := by decide
theorem witness_ShiftsMoveOneBitIntoVf : (0 : Reg) ≠ 15 := by decide

theorem witness_BcdStoresThreeDigits : idx (regs [] 4093) + 2 ≤ 4095 ∧ 4095 < idx (regs [] 4094) + 2 := by decide

theorem witness_BlockStoreWritesV0ToVx :
    idx (regs [] 4080) + (15 : Reg).val ≤ 4095 ∧ (15 : Reg) ≤ 15 ∧ 4095 < idx (regs [] 4081) + (15 : Reg).val := by decide

theorem witness_BlockLoadReadsV0ToVx :
    idx (regs [] 4095) + (0 : Reg).val ≤ 4095 ∧ (0 : Reg) ≤ 0 ∧ (0 : Reg) < 1 ∧ 4095 < idx (regs [] 4095) + (1 : Reg).val := by decide

theorem witness_BlockLoadGivesBackBlockStore :
    idx (regs [(0, 3)] 4094) + (1 : Reg).val ≤ 4095 ∧ (1 : Reg) ≤ 1 ∧ (1 : Reg) < 2 := by decide

theorem witness_DrawTogglesExactlyTheSprite :
    (Instr.drw 0 1 15).wellFormed = true ∧ spriteFits (regs [] 4081) 15 ∧ spriteFits (regs [] 4095) 0 ∧
    0 < 15 ∧ 4095 < idx (regs [] 4082) + 15 - 1 :=
  ⟨by decide, .inr (by decide), .inl rfl, by decide, by decide⟩

/-- A set byte and an all-zero sprite: the two clauses about VF. -/
theorem witness_DrawTogglesExactlyTheSprite_vf :
    (∃ r b, r < 1 ∧ memRead (withBytes 0x300 [0x80] (regs [] 0x300)).mem (idx (withBytes 0x300 [0x80] (regs [] 0x300)) + r) = .ok b ∧
      b ≠ 0) ∧ ∀ r b, r < 0 → memRead State.reset.mem (idx State.reset + r) = .ok b → b = 0 :=
  ⟨⟨0, 0x80, by decide, rfl, by decide⟩, fun _ _ h => absurd h (Nat.not_lt_zero _)⟩

theorem witness_DrawTwiceRestores :
    (Instr.drw 14 14 5).wellFormed = true ∧ (14 : Reg) ≠ 15 ∧ spriteFits (regs [] 0x32) 5 :=
  ⟨by decide, by decide, .inr (by decide)⟩

theorem witness_KeySkipsReadTheLevel :
    reg (regs [(1, 15)]) 1 = (15 : Key).val ∧ 15 < reg (regs [(1, 16)]) 1 := by decide

theorem witness_KeyRangePoliciesAsListed :
    15 < reg (regs [(1, 0xFF)]) 1 ∧ (15 : Key).val = reg (regs [(1, 0xFF)]) 1 % 16 ∧ reg (regs [(1, 15)]) 1 ≤ 15 := by decide

end Sys2Proof.Tests
end

section
/-! The obligations about memory access and fetch (spec/20_memory.md R63, R66), with the laws they need: what a checked
write answers, and the digits of a word as its quotients and remainders. -/

namespace Sys2Proof

/-! ### The digits of a word (R91) -/

theorem toNat_fieldFamily (op : Word) : (fieldFamily op).toNat = op.toNat / 4096 := by
  have := op.isLt
  rw [fieldFamily, BitVec.extractLsb'_toNat, Nat.shiftRight_eq_div_pow]
  omega

theorem val_fieldX (op : Word) : (fieldX op).val = op.toNat / 256 % 16 := by
  rw [fieldX, BitVec.val_toFin, BitVec.extractLsb'_toNat, Nat.shiftRight_eq_div_pow]

theorem val_fieldY (op : Word) : (fieldY op).val = op.toNat / 16 % 16 := by
  rw [fieldY, BitVec.val_toFin, BitVec.extractLsb'_toNat, Nat.shiftRight_eq_div_pow]

theorem toNat_fieldN (op : Word) : (fieldN op).toNat = op.toNat % 16 := by
  rw [fieldN, BitVec.extractLsb'_toNat, Nat.shiftRight_zero]

theorem toNat_fieldNN (op : Word) : (fieldNN op).toNat = op.toNat % 256 := by
  rw [fieldNN, BitVec.extractLsb'_toNat, Nat.shiftRight_zero]

/-- The high byte of a fetched word holds the family and X, the low byte Y and N, equally NN (R66). -/
theorem fields_wordOfBytes (hi lo : Byte) :
    (fieldFamily (wordOfBytes hi lo)).toNat = hi.toNat / 16 ∧ (fieldX (wordOfBytes hi lo)).val = hi.toNat % 16 ∧
    (fieldY (wordOfBytes hi lo)).val = lo.toNat / 16 ∧ (fieldN (wordOfBytes hi lo)).toNat = lo.toNat % 16 ∧
    fieldNN (wordOfBytes hi lo) = lo := by
  have hlo := lo.isLt
  have hword := toNat_wordOfBytes hi lo
  refine ⟨?family, ?x, ?y, ?n, BitVec.eq_of_toNat_eq ?nn⟩
  case family => rw [toNat_fieldFamily, hword]; omega
  case x => rw [val_fieldX, hword]; omega
  case y => rw [val_fieldY, hword]; omega
  case n => rw [toNat_fieldN, hword]; omega
  case nn => rw [toNat_fieldNN, hword]; omega

end Sys2Proof

namespace Sys2Proof.Machine

/-! ### Checked writes (R63) -/

theorem memWrite_ok {m : Memory} {a : Nat} {v : Byte} (h : a < Config.memSize) :
    memWrite m a v = .ok (Memory.poke m a v) :=
  memWrite_eq_ok_iff.2 ⟨h, rfl⟩

theorem memWrite_error {m : Memory} {a : Nat} {v : Byte} (h : Config.memSize ≤ a) :
    memWrite m a v = .error (.outOfBounds a) := by
  rw [memWrite, if_neg (Nat.not_lt.2 h)]

/-- A written byte reads back. -/
theorem memRead_poke_self (m : Memory) {a : Nat} (v : Byte) (h : a < Config.memSize) :
    memRead (Memory.poke m a v) a = .ok v := by
  rw [memRead_ok h, Memory.peek_poke_self]

/-- A write is not seen by the read of another address, inside the address space or not. -/
theorem memRead_poke_ne (m : Memory) {a b : Nat} (v : Byte) (h : b ≠ a) :
    memRead (Memory.poke m a v) b = memRead m b := by
  rw [memRead, memRead, Memory.peek_poke_ne m v h]

/-! ### The obligations -/

/-- Settles O6: the check of the address decides which access law applies. -/
theorem checkedByteAccess : Obligations.CheckedByteAccess := by
  unfold Obligations.CheckedByteAccess
  intro m a v next next'
  constructor
  · intro h
    have ha : a < Config.memSize := Nat.lt_succ_of_le h
    exact ⟨⟨_, memRead_ok ha⟩, _, memWrite_ok ha, memRead_poke_self m v ha, fun _ hb => memRead_poke_ne m v hb⟩
  · intro h
    have hread : memRead m a = .error (.outOfBounds a) := memRead_error h
    have hwrite : memWrite m a v = .error (.outOfBounds a) := memWrite_error h
    exact ⟨hread, hwrite, orRaise_eq_fault_iff.2 (.inl hread), orRaise_eq_fault_iff.2 (.inl hwrite)⟩

/-- Settles O9: the fetch joins the two bytes at pc, and the digits of a joined word are those of its bytes. -/
theorem fetchIsBigEndian : Obligations.FetchIsBigEndian := by
  unfold Obligations.FetchIsBigEndian
  intro s h
  have hlo : s.pc.toNat + 1 < Config.memSize := Nat.lt_of_le_of_lt (Nat.succ_le_succ h) (by decide)
  exact ⟨_, _, _, memRead_ok (Nat.lt_of_succ_lt hlo), memRead_ok hlo, fetch_ok hlo, toNat_wordOfBytes _ _,
    fields_wordOfBytes _ _⟩

end Sys2Proof.Machine
end

section
/-! The obligation about ANNN and FX29 (spec/42_index_memory.md R160, R162), with the laws it needs: the words of the
rules are the encoder's formats, what a word of family A or F decodes to, and the numbers that I takes. -/

namespace Sys2Proof

open Sys2Proof.Claims

/-! ### The words of the statements are the encoder's formats (R92) -/

theorem wordA_eq_formatA (base : Nat) (nnn : Addr12) : wordA base nnn = formatA (BitVec.ofNat 16 base) nnn := by
  rw [wordA, formatA, BitVec.ofNat_toNat]

theorem wordF_eq_formatF (base : Nat) (x : Reg) : wordF base x = formatF (BitVec.ofNat 16 base) x := by
  have hx : BitVec.ofNat 16 x.val = (BitVec.ofFin x : BitVec 4).setWidth 16 := BitVec.ofNat_toNat 16 _
  rw [wordF, formatF, putX, hx]

/-! ### What a word of family A or F decodes to (R94) -/

theorem decode_of_familyA {op : Word} (h : fieldFamily op = 0xA#4) : decode op = .instr (.ldIdx (fieldNNN op)) := by
  rw [decode, h]; rfl

theorem decode_of_familyF {op : Word} (h : fieldFamily op = 0xF#4) : decode op = decodeFamilyF op := by
  rw [decode, h]; rfl

/-- ANNN decodes from its encoding. -/
theorem decode_wordA_ldIdx (nnn : Addr12) : decode (wordA 0xA000 nnn) = .instr (.ldIdx nnn) := by
  obtain ⟨hfamily, hnnn⟩ := fields_formatA 0xA000#16 nnn (by decide)
  rw [wordA_eq_formatA, decode_of_familyA hfamily, hnnn]

/-- FX29 decodes from its encoding: the family digit leads to family F, where the low byte selects it. -/
theorem decode_wordF_ldF (x : Reg) : decode (wordF 0xF029 x) = .instr (.ldF x) := by
  obtain ⟨hfamily, hx, hnn⟩ := fields_formatF 0xF029#16 x (by decide)
  rw [wordF_eq_formatF, decode_of_familyF hfamily, decodeFamilyF, hx, hnn]
  rfl

end Sys2Proof

namespace Sys2Proof.Machine

open Sys2Proof.Claims

/-! ### What the two instructions do -/

theorem exec_ldIdx (nnn : Addr12) (s : State) : exec (.ldIdx nnn) s = .next (s.setIndex (absAddress nnn)) := rfl

theorem exec_ldF (x : Reg) (s : State) : exec (.ldF x) s = .next (s.setIndex (fontAddress (readReg s x))) := rfl

/-- Setting I changes nothing else. -/
theorem onlyIndex_setIndex (s : State) (w : Word) : OnlyIndex s (s.setIndex w) :=
  ⟨fun _ _ => rfl, fun _ => rfl, rfl⟩

/-- 16 bits hold NNN whole (R160). -/
theorem toNat_absAddress (nnn : Addr12) : (absAddress nnn).toNat = nnn.toNat :=
  BitVec.toNat_setWidth_of_le (by decide)

/-- 16 bits hold five times a byte whole: at most 1275 (R162). -/
theorem toNat_fontAddress (a : Byte) : (fontAddress a).toNat = a.toNat * 5 := by
  have ha := a.isLt
  rw [fontAddress, BitVec.toNat_ofNat, Nat.mod_eq_of_lt (by omega)]

/-! ### The obligation -/

/-- Settles O44: either instruction is one `setIndex`, whose word is NNN or the whole product by its 16 bits. -/
theorem indexLoads : Obligations.IndexLoads := by
  unfold Obligations.IndexLoads
  intro nnn x s
  exact ⟨⟨decode_wordA_ldIdx nnn, decode_wordF_ldF x⟩,
    ⟨_, exec_ldIdx nnn s, toNat_absAddress nnn, onlyIndex_setIndex s _⟩,
    _, exec_ldF x s, toNat_fontAddress (readReg s x), onlyIndex_setIndex s _⟩

end Sys2Proof.Machine
end

section
/-! The obligation about 00E0 (spec/43_display.md R180), with the laws it needs: how 00E0 decodes, and what the list of
lit pixels holds. -/

namespace Sys2Proof

/-- Family 0 compares the whole word, with 00E0 first (R94, R97). -/
theorem decode_cls : decode 0x00E0#16 = .instr .cls := by
  have hfamily : decode 0x00E0#16 = decodeFamily0 0x00E0#16 := rfl
  rw [hfamily, decodeFamily0, if_pos rfl]

end Sys2Proof

namespace Sys2Proof.Machine

open Sys2Proof.Claims

/-! ### The lit pixels (R181) -/

/-- `iter_set_pixels()` lists exactly the pixels that are 1. -/
theorem mem_litPixels_iff {fb : Framebuffer} {x : Fin 64} {y : Fin 32} :
    (x, y) ∈ litPixels fb ↔ getPixel fb x y = true := by
  simp [litPixels]

/-- `iter_set_pixels()` is empty exactly when the framebuffer is dark. -/
theorem litPixels_eq_nil_iff {fb : Framebuffer} : litPixels fb = [] ↔ ∀ x y, getPixel fb x y = false := by
  simp only [List.eq_nil_iff_forall_not_mem, Prod.forall, mem_litPixels_iff, Bool.not_eq_true]

/-! ### What the instruction does -/

theorem exec_cls (s : State) : exec .cls s = .next (s.setFb clearPixels) := rfl

/-- Replacing the framebuffer leaves every register as it was. -/
theorem regsKept_setFb (s : State) (fb : Framebuffer) : RegsKept [] s (s.setFb fb) := fun _ _ => rfl

/-- Replacing the framebuffer leaves every byte of memory as it was. -/
theorem memKept_setFb (s : State) (fb : Framebuffer) : MemKept s (s.setFb fb) := fun _ => rfl

/-! ### The obligation -/

/-- Settles O50: CLS is one `setFb` of the dark framebuffer, and a dark framebuffer has no lit pixels. -/
theorem clearEmptiesTheFramebuffer : Obligations.ClearEmptiesTheFramebuffer := by
  unfold Obligations.ClearEmptiesTheFramebuffer
  intro s
  exact ⟨decode_cls, _, exec_cls s, getPixel_clearPixels, litPixels_eq_nil_iff.2 getPixel_clearPixels,
    regsKept_setFb s _, memKept_setFb s _, rfl⟩

end Sys2Proof.Machine
end

section
/-! The obligation about FX07, FX15 and FX18 (spec/44_keypad_timers.md R194, R195, R196), with the laws it needs: what
a word of format F in family F decodes to, and what a register or timer write leaves unchanged. -/

namespace Sys2Proof

open Sys2Proof.Claims

/-! ### How the three words decode (R94) -/

/-- `base | X << 8` with a base of family F is decoded by family F, its X field is X and its low byte is the base's. -/
theorem decode_wordF_of_familyF {base : Nat} (x : Reg) (hfamily : (BitVec.ofNat 16 base).extractLsb' 12 4 = 0xF#4)
    (hx : (BitVec.ofNat 16 base).extractLsb' 8 4 = 0#4) :
    decode (wordF base x) = decodeFamilyF (wordF base x) ∧ fieldX (wordF base x) = x ∧
    fieldNN (wordF base x) = (BitVec.ofNat 16 base).extractLsb' 0 8 := by
  rw [wordF_eq_formatF]
  obtain ⟨hfam, hfieldX, hfieldNN⟩ := fields_formatF _ x hx
  exact ⟨decode_of_familyF (hfam.trans hfamily), hfieldX, hfieldNN⟩

theorem decode_wordF_ldVxDt (x : Reg) : decode (wordF 0xF007 x) = .instr (.ldVxDt x) := by
  obtain ⟨hdecode, hx, hnn⟩ := decode_wordF_of_familyF (base := 0xF007) x (by decide) (by decide)
  rw [hdecode, decodeFamilyF, hx, hnn]
  rfl

theorem decode_wordF_ldDtVx (x : Reg) : decode (wordF 0xF015 x) = .instr (.ldDtVx x) := by
  obtain ⟨hdecode, hx, hnn⟩ := decode_wordF_of_familyF (base := 0xF015) x (by decide) (by decide)
  rw [hdecode, decodeFamilyF, hx, hnn]
  rfl

theorem decode_wordF_ldStVx (x : Reg) : decode (wordF 0xF018 x) = .instr (.ldStVx x) := by
  obtain ⟨hdecode, hx, hnn⟩ := decode_wordF_of_familyF (base := 0xF018) x (by decide) (by decide)
  rw [hdecode, decodeFamilyF, hx, hnn]
  rfl

end Sys2Proof

namespace Sys2Proof.Machine

open Sys2Proof.Claims

/-! ### What the three instructions do -/

theorem exec_ldVxDt (x : Reg) (s : State) : exec (.ldVxDt x) s = .next (writeReg x s.dt s) := rfl

theorem exec_ldDtVx (x : Reg) (s : State) : exec (.ldDtVx x) s = .next (s.setDt (readReg s x)) := rfl

theorem exec_ldStVx (x : Reg) (s : State) : exec (.ldStVx x) s = .next (s.setSt (readReg s x)) := rfl

/-! ### What their writes leave unchanged -/

/-- Writing a register changes nothing else (R20). -/
theorem onlyRegs_writeReg (x : Reg) (b : Byte) (s : State) : OnlyRegs [x] s (writeReg x b s) :=
  ⟨fun _ hr => readReg_writeReg_ne (List.ne_of_not_mem_cons hr) b s, fun _ => rfl, rfl⟩

theorem regsKept_setDt (s : State) (b : Byte) : RegsKept [] s (s.setDt b) := fun _ _ => rfl

theorem memKept_setDt (s : State) (b : Byte) : MemKept s (s.setDt b) := fun _ => rfl

theorem regsKept_setSt (s : State) (b : Byte) : RegsKept [] s (s.setSt b) := fun _ _ => rfl

theorem memKept_setSt (s : State) (b : Byte) : MemKept s (s.setSt b) := fun _ => rfl

/-! ### The obligation -/

/-- Settles O57: each instruction is one write of a whole byte, which reads back as that byte. -/
theorem timerRegisterAccess : Obligations.TimerRegisterAccess := by
  unfold Obligations.TimerRegisterAccess
  intro x s
  refine ⟨⟨decode_wordF_ldVxDt x, decode_wordF_ldDtVx x, decode_wordF_ldStVx x⟩, ?readDt, ?writeDt, ?writeSt⟩
  case readDt =>
    have hread : reg (writeReg x s.dt s) x = s.dt.toNat := congrArg BitVec.toNat (readReg_writeReg_self x s.dt s)
    exact ⟨_, exec_ldVxDt x s, hread, onlyRegs_writeReg x s.dt s⟩
  case writeDt => exact ⟨_, exec_ldDtVx x s, rfl, regsKept_setDt s _, memKept_setDt s _, rfl⟩
  case writeSt => exact ⟨_, exec_ldStVx x s, rfl, regsKept_setSt s _, memKept_setSt s _, rfl⟩

end Sys2Proof.Machine
end

section
/-! The obligations about TICK and the keypad's queries (spec/60_exceptions.md R226, R232), with the laws they need:
what a timer holds after a TICK, and when the poll answers a key or none. -/

namespace Sys2Proof.Machine

/-! ### TICK (R226) -/

/-- The difference of naturals stays 0 at 0, as a timer does. -/
theorem toNat_tickTimer (t : Byte) : (tickTimer t).toNat = t.toNat - 1 := by
  unfold tickTimer
  split
  case isTrue hzero => rw [hzero]; rfl
  case isFalse hpos =>
    have hone : 1#8 ≤ t := by bv_omega
    exact BitVec.toNat_sub_of_le hone

theorem deliver_tick (s : State) : deliver .tick s = (s.setDt (tickTimer s.dt)).setSt (tickTimer s.st) := rfl

/-- Settles O20: TICK is two timer writes, each of the lowered timer. -/
theorem tickLowersEachTimer : Obligations.TickLowersEachTimer := by
  unfold Obligations.TickLowersEachTimer
  intro s
  rw [deliver_tick]
  exact ⟨toNat_tickTimer s.dt, toNat_tickTimer s.st, rfl⟩

/-! ### The keypad's queries (R232) -/

/-- At most one key is the lowest that is down. -/
theorem lowestPressed_unique {s : State} {j k : Key} (hj : isPressed s j = true)
    (hbelow_j : ∀ i, i < j → isPressed s i = false) (hk : isPressed s k = true)
    (hbelow_k : ∀ i, i < k → isPressed s i = false) : j = k := by
  rcases lt_trichotomy j k with hlt | heq | hgt
  · exact absurd hj (Bool.eq_false_iff.1 (hbelow_k j hlt))
  · exact heq
  · exact absurd hk (Bool.eq_false_iff.1 (hbelow_j k hgt))

theorem pollAnyPressed_eq_some_iff {s : State} {k : Key} :
    pollAnyPressed s = some k ↔ isPressed s k = true ∧ ∀ j, j < k → isPressed s j = false := by
  obtain ⟨l, hpoll, hl, hbelow_l⟩ | ⟨hpoll, hup⟩ := pollAnyPressed_cases s
  · rw [hpoll, Option.some_inj]
    constructor
    · rintro rfl
      exact ⟨hl, hbelow_l⟩
    · rintro ⟨hk, hbelow_k⟩
      exact lowestPressed_unique hl hbelow_l hk hbelow_k
  · simp only [hpoll, hup, reduceCtorEq, Bool.false_eq_true, false_and]

theorem pollAnyPressed_eq_none_iff {s : State} : pollAnyPressed s = none ↔ ∀ k, isPressed s k = false := by
  obtain ⟨k, hpoll, hk, -⟩ | ⟨hpoll, hup⟩ := pollAnyPressed_cases s
  · have hdown : ¬ ∀ j, isPressed s j = false := fun hup => Bool.eq_false_iff.1 (hup k) hk
    simp only [hpoll, hdown, reduceCtorEq]
  · exact iff_of_true hpoll hup

/-- Settles O21: the poll answers `some` of the only lowest pressed key, or `none` when there is no such key. -/
theorem pollFindsLowestPressedKey : Obligations.PollFindsLowestPressedKey := by
  unfold Obligations.PollFindsLowestPressedKey
  intro s
  exact ⟨fun _ => rfl, fun _ => pollAnyPressed_eq_some_iff, pollAnyPressed_eq_none_iff⟩

end Sys2Proof.Machine
end

section
/-! The obligations about the encoding (spec/30_encoding.md R90 to R100). Both directions of the round trip rest on the
fields: a format carries its operands, and a word is determined by its digits. -/

namespace Sys2Proof

/-! ### From an instruction to its word and back (R92, R94, R96) -/

/-- Format by format, the decoder reads back the fields that the encoder put there. -/
theorem decode_encode (i : Instr) (hwf : i.wellFormed = true) : decode (encode i) = .instr i := by
  cases i with
  | cls => decide
  | ret => decide
  | jp nnn => simp [decode, encode, fields_formatA 0x1000#16 nnn (by decide)]
  | call nnn => simp [decode, encode, fields_formatA 0x2000#16 nnn (by decide)]
  | seI x nn => simp [decode, encode, fields_formatI 0x3000#16 x nn (by decide) (by decide)]
  | sneI x nn => simp [decode, encode, fields_formatI 0x4000#16 x nn (by decide) (by decide)]
  | seR x y => simp [decode, encode, decodeZeroNibble, fields_formatR 0x5000#16 x y (by decide) (by decide)]
  | ldI x nn => simp [decode, encode, fields_formatI 0x6000#16 x nn (by decide) (by decide)]
  | addI x nn => simp [decode, encode, fields_formatI 0x7000#16 x nn (by decide) (by decide)]
  | ldR x y => simp [decode, encode, decodeFamily8, fields_formatR 0x8000#16 x y (by decide) (by decide)]
  | orR x y => simp [decode, encode, decodeFamily8, fields_formatR 0x8001#16 x y (by decide) (by decide)]
  | andR x y => simp [decode, encode, decodeFamily8, fields_formatR 0x8002#16 x y (by decide) (by decide)]
  | xorR x y => simp [decode, encode, decodeFamily8, fields_formatR 0x8003#16 x y (by decide) (by decide)]
  | addR x y => simp [decode, encode, decodeFamily8, fields_formatR 0x8004#16 x y (by decide) (by decide)]
  | sub x y => simp [decode, encode, decodeFamily8, fields_formatR 0x8005#16 x y (by decide) (by decide)]
  | shr x y => simp [decode, encode, decodeFamily8, fields_formatR 0x8006#16 x y (by decide) (by decide)]
  | subn x y => simp [decode, encode, decodeFamily8, fields_formatR 0x8007#16 x y (by decide) (by decide)]
  | shl x y => simp [decode, encode, decodeFamily8, fields_formatR 0x800E#16 x y (by decide) (by decide)]
  | sneR x y => simp [decode, encode, decodeZeroNibble, fields_formatR 0x9000#16 x y (by decide) (by decide)]
  | ldIdx nnn => simp [decode, encode, fields_formatA 0xA000#16 nnn (by decide)]
  | jpV0 nnn => simp [decode, encode, fields_formatA 0xB000#16 nnn (by decide)]
  | rnd x nn => simp [decode, encode, fields_formatI 0xC000#16 x nn (by decide) (by decide)]
  | drw x y n =>
    have hn : n % 16 = n := Nat.mod_eq_of_lt (of_decide_eq_true hwf)
    simp [decode, encode, fields_formatD 0xD000#16 x y n (by decide) (by decide) (by decide), hn]
  | skp x => simp [decode, encode, decodeFamilyE, fields_formatF 0xE09E#16 x (by decide)]
  | sknp x => simp [decode, encode, decodeFamilyE, fields_formatF 0xE0A1#16 x (by decide)]
  | ldVxDt x => simp [decode, encode, decodeFamilyF, fields_formatF 0xF007#16 x (by decide)]
  | ldVxK x => simp [decode, encode, decodeFamilyF, fields_formatF 0xF00A#16 x (by decide)]
  | ldDtVx x => simp [decode, encode, decodeFamilyF, fields_formatF 0xF015#16 x (by decide)]
  | ldStVx x => simp [decode, encode, decodeFamilyF, fields_formatF 0xF018#16 x (by decide)]
  | addIdx x => simp [decode, encode, decodeFamilyF, fields_formatF 0xF01E#16 x (by decide)]
  | ldF x => simp [decode, encode, decodeFamilyF, fields_formatF 0xF029#16 x (by decide)]
  | ldB x => simp [decode, encode, decodeFamilyF, fields_formatF 0xF033#16 x (by decide)]
  | stRegs x => simp [decode, encode, decodeFamilyF, fields_formatF 0xF055#16 x (by decide)]
  | ldRegs x => simp [decode, encode, decodeFamilyF, fields_formatF 0xF065#16 x (by decide)]

/-- Settles O12: the two bytes of a word join to it again, and the word decodes. -/
theorem decodeOfEncode : Obligations.DecodeOfEncode := by
  unfold Obligations.DecodeOfEncode
  intro i hwf
  refine ⟨decode_encode i hwf, fun rest => ?_⟩
  have hbytes : decodeBytes (encodeBytes i ++ rest) =
      .one (decode (wordOfBytes (highByte (encode i)) (lowByte (encode i)))) rest := rfl
  rw [hbytes, wordOfBytes_split, decode_encode i hwf]

/-! ### A word is determined by its digits (R91) -/

theorem word_eq_of_family_NNN {a b : Word} (hfamily : fieldFamily a = fieldFamily b) (hnnn : fieldNNN a = fieldNNN b) :
    a = b := by
  apply BitVec.eq_of_toNat_eq
  have hf := congrArg BitVec.toNat hfamily
  have hn := congrArg BitVec.toNat hnnn
  simp only [toNat_fieldFamily, fieldNNN, BitVec.extractLsb'_toNat, Nat.shiftRight_zero] at hf hn
  omega

theorem word_eq_of_family_X_NN {a b : Word} (hfamily : fieldFamily a = fieldFamily b) (hx : fieldX a = fieldX b)
    (hnn : fieldNN a = fieldNN b) : a = b := by
  apply BitVec.eq_of_toNat_eq
  have hf := congrArg BitVec.toNat hfamily
  have hX := congrArg Fin.val hx
  have hn := congrArg BitVec.toNat hnn
  simp only [toNat_fieldFamily, val_fieldX, toNat_fieldNN] at hf hX hn
  omega

theorem word_eq_of_family_X_Y_N {a b : Word} (hfamily : fieldFamily a = fieldFamily b) (hx : fieldX a = fieldX b)
    (hy : fieldY a = fieldY b) (hn : fieldN a = fieldN b) : a = b := by
  apply BitVec.eq_of_toNat_eq
  have hf := congrArg BitVec.toNat hfamily
  have hX := congrArg Fin.val hx
  have hY := congrArg Fin.val hy
  have hN := congrArg BitVec.toNat hn
  simp only [toNat_fieldFamily, val_fieldX, val_fieldY, toNat_fieldN] at hf hX hY hN
  omega

/-! ### A format over a word's own fields is the word -/

section
variable {op base : Word}

theorem formatA_of_fields (hfamily : (fieldFamily op).toNat = (base.extractLsb' 12 4).toNat)
    (hbase : base.extractLsb' 0 12 = 0#12) : formatA base (fieldNNN op) = op := by
  obtain ⟨hf, hnnn⟩ := fields_formatA base (fieldNNN op) hbase
  exact word_eq_of_family_NNN (hf.trans (BitVec.eq_of_toNat_eq hfamily.symm)) hnnn

theorem formatI_of_fields (hfamily : (fieldFamily op).toNat = (base.extractLsb' 12 4).toNat)
    (hbase : base.extractLsb' 8 4 = 0#4 ∧ base.extractLsb' 0 8 = 0#8) :
    formatI base (fieldX op) (fieldNN op) = op := by
  obtain ⟨hbaseX, hbaseNN⟩ := hbase
  obtain ⟨hf, hx, hnn⟩ := fields_formatI base (fieldX op) (fieldNN op) hbaseX hbaseNN
  exact word_eq_of_family_X_NN (hf.trans (BitVec.eq_of_toNat_eq hfamily.symm)) hx hnn

theorem formatF_of_fields (hfamily : (fieldFamily op).toNat = (base.extractLsb' 12 4).toNat)
    (hlow : (fieldNN op).toNat = (base.extractLsb' 0 8).toNat) (hbase : base.extractLsb' 8 4 = 0#4) :
    formatF base (fieldX op) = op := by
  obtain ⟨hf, hx, hnn⟩ := fields_formatF base (fieldX op) hbase
  exact word_eq_of_family_X_NN (hf.trans (BitVec.eq_of_toNat_eq hfamily.symm)) hx
    (hnn.trans (BitVec.eq_of_toNat_eq hlow.symm))

theorem formatR_of_fields (hfamily : (fieldFamily op).toNat = (base.extractLsb' 12 4).toNat)
    (hlow : (fieldN op).toNat = (base.extractLsb' 0 4).toNat)
    (hbase : base.extractLsb' 8 4 = 0#4 ∧ base.extractLsb' 4 4 = 0#4) :
    formatR base (fieldX op) (fieldY op) = op := by
  obtain ⟨hbaseX, hbaseY⟩ := hbase
  obtain ⟨hf, hx, hy, hn⟩ := fields_formatR base (fieldX op) (fieldY op) hbaseX hbaseY
  exact word_eq_of_family_X_Y_N (hf.trans (BitVec.eq_of_toNat_eq hfamily.symm)) hx hy
    (hn.trans (BitVec.eq_of_toNat_eq hlow.symm))

theorem formatD_of_fields (hfamily : (fieldFamily op).toNat = (base.extractLsb' 12 4).toNat)
    (hbase : base.extractLsb' 8 4 = 0#4 ∧ base.extractLsb' 4 4 = 0#4 ∧ base.extractLsb' 0 4 = 0#4) :
    formatD base (fieldX op) (fieldY op) (fieldN op).toNat = op := by
  obtain ⟨hbaseX, hbaseY, hbaseN⟩ := hbase
  obtain ⟨hf, hx, hy, hn⟩ := fields_formatD base (fieldX op) (fieldY op) (fieldN op).toNat hbaseX hbaseY hbaseN
  exact word_eq_of_family_X_Y_N (hf.trans (BitVec.eq_of_toNat_eq hfamily.symm)) hx hy
    (hn.trans (BitVec.ofNat_toNat 4 (fieldN op)))

end

/-! ### From a word to its instruction and back (R94, R97), family by family -/

theorem encode_of_decodeFamily0 {op : Word} {i : Instr} (h : decodeFamily0 op = .instr i) :
    encode i = op ∧ i.wellFormed = true := by
  unfold decodeFamily0 at h
  split at h
  case isTrue hop => cases h; exact ⟨hop.symm, rfl⟩
  case isFalse =>
    split at h
    case isTrue hop => cases h; exact ⟨hop.symm, rfl⟩
    case isFalse => cases h

/-- Families 5 and 9: the instruction and the fact that the low digit is 0. -/
theorem decodeZeroNibble_eq_instr {op : Word} {i j : Instr} (h : decodeZeroNibble op j = .instr i) :
    i = j ∧ (fieldN op).toNat = 0 := by
  unfold decodeZeroNibble at h
  split at h
  case isTrue hn => cases h; exact ⟨rfl, congrArg BitVec.toNat hn⟩
  case isFalse => cases h

theorem encode_of_decodeFamily8 {op : Word} {i : Instr} (hf : (fieldFamily op).toNat = 8)
    (h : decodeFamily8 op = .instr i) : encode i = op ∧ i.wellFormed = true := by
  simp only [decodeFamily8] at h
  split at h
  case h_1 hn => cases h; exact ⟨formatR_of_fields (base := 0x8000#16) hf hn (by decide), rfl⟩
  case h_2 hn => cases h; exact ⟨formatR_of_fields (base := 0x8001#16) hf hn (by decide), rfl⟩
  case h_3 hn => cases h; exact ⟨formatR_of_fields (base := 0x8002#16) hf hn (by decide), rfl⟩
  case h_4 hn => cases h; exact ⟨formatR_of_fields (base := 0x8003#16) hf hn (by decide), rfl⟩
  case h_5 hn => cases h; exact ⟨formatR_of_fields (base := 0x8004#16) hf hn (by decide), rfl⟩
  case h_6 hn => cases h; exact ⟨formatR_of_fields (base := 0x8005#16) hf hn (by decide), rfl⟩
  case h_7 hn => cases h; exact ⟨formatR_of_fields (base := 0x8006#16) hf hn (by decide), rfl⟩
  case h_8 hn => cases h; exact ⟨formatR_of_fields (base := 0x8007#16) hf hn (by decide), rfl⟩
  case h_9 hn => cases h; exact ⟨formatR_of_fields (base := 0x800E#16) hf hn (by decide), rfl⟩
  case h_10 => cases h

theorem encode_of_decodeFamilyE {op : Word} {i : Instr} (hf : (fieldFamily op).toNat = 0xE)
    (h : decodeFamilyE op = .instr i) : encode i = op ∧ i.wellFormed = true := by
  unfold decodeFamilyE at h
  split at h
  case h_1 hn => cases h; exact ⟨formatF_of_fields (base := 0xE09E#16) hf hn (by decide), rfl⟩
  case h_2 hn => cases h; exact ⟨formatF_of_fields (base := 0xE0A1#16) hf hn (by decide), rfl⟩
  case h_3 => cases h

theorem encode_of_decodeFamilyF {op : Word} {i : Instr} (hf : (fieldFamily op).toNat = 0xF)
    (h : decodeFamilyF op = .instr i) : encode i = op ∧ i.wellFormed = true := by
  simp only [decodeFamilyF] at h
  split at h
  case h_1 hn => cases h; exact ⟨formatF_of_fields (base := 0xF007#16) hf hn (by decide), rfl⟩
  case h_2 hn => cases h; exact ⟨formatF_of_fields (base := 0xF00A#16) hf hn (by decide), rfl⟩
  case h_3 hn => cases h; exact ⟨formatF_of_fields (base := 0xF015#16) hf hn (by decide), rfl⟩
  case h_4 hn => cases h; exact ⟨formatF_of_fields (base := 0xF018#16) hf hn (by decide), rfl⟩
  case h_5 hn => cases h; exact ⟨formatF_of_fields (base := 0xF01E#16) hf hn (by decide), rfl⟩
  case h_6 hn => cases h; exact ⟨formatF_of_fields (base := 0xF029#16) hf hn (by decide), rfl⟩
  case h_7 hn => cases h; exact ⟨formatF_of_fields (base := 0xF033#16) hf hn (by decide), rfl⟩
  case h_8 hn => cases h; exact ⟨formatF_of_fields (base := 0xF055#16) hf hn (by decide), rfl⟩
  case h_9 hn => cases h; exact ⟨formatF_of_fields (base := 0xF065#16) hf hn (by decide), rfl⟩
  case h_10 => cases h

/-- Settles O13: the sixteen families in turn, each format over the word's own fields being the word. -/
theorem encodeOfDecode : Obligations.EncodeOfDecode := by
  unfold Obligations.EncodeOfDecode
  intro op i h
  have hlt := (fieldFamily op).isLt
  unfold decode at h
  split at h
  case h_1 => exact encode_of_decodeFamily0 h
  case h_2 hf => cases h; exact ⟨formatA_of_fields (base := 0x1000#16) hf (by decide), rfl⟩
  case h_3 hf => cases h; exact ⟨formatA_of_fields (base := 0x2000#16) hf (by decide), rfl⟩
  case h_4 hf => cases h; exact ⟨formatI_of_fields (base := 0x3000#16) hf (by decide), rfl⟩
  case h_5 hf => cases h; exact ⟨formatI_of_fields (base := 0x4000#16) hf (by decide), rfl⟩
  case h_6 hf =>
    obtain ⟨rfl, hn⟩ := decodeZeroNibble_eq_instr h
    exact ⟨formatR_of_fields (base := 0x5000#16) hf hn (by decide), rfl⟩
  case h_7 hf => cases h; exact ⟨formatI_of_fields (base := 0x6000#16) hf (by decide), rfl⟩
  case h_8 hf => cases h; exact ⟨formatI_of_fields (base := 0x7000#16) hf (by decide), rfl⟩
  case h_9 hf => exact encode_of_decodeFamily8 hf h
  case h_10 hf =>
    obtain ⟨rfl, hn⟩ := decodeZeroNibble_eq_instr h
    exact ⟨formatR_of_fields (base := 0x9000#16) hf hn (by decide), rfl⟩
  case h_11 hf => cases h; exact ⟨formatA_of_fields (base := 0xA000#16) hf (by decide), rfl⟩
  case h_12 hf => cases h; exact ⟨formatA_of_fields (base := 0xB000#16) hf (by decide), rfl⟩
  case h_13 hf => cases h; exact ⟨formatI_of_fields (base := 0xC000#16) hf (by decide), rfl⟩
  case h_14 hf =>
    cases h
    exact ⟨formatD_of_fields (base := 0xD000#16) hf (by decide), decide_eq_true (fieldN op).isLt⟩
  case h_15 hf => exact encode_of_decodeFamilyE hf h
  case h_16 =>
    have hf : (fieldFamily op).toNat = 0xF := by grind
    exact encode_of_decodeFamilyF hf h

end Sys2Proof
end

section
/-! The obligations about the opcode map and the unknown opcodes (spec/30_encoding.md R94 to R97). A row that selects a
word fixes the word's digits, so that the word is the encoding of an instruction of that row. -/

namespace Sys2Proof

/-! ### What a row that selects a word fixes (R96) -/

theorem slice_and (a b : Word) (start len : Nat) :
    (a &&& b).extractLsb' start len = a.extractLsb' start len &&& b.extractLsb' start len := by
  ext i hi; simp

/-- Where the mask of a selecting row is all ones, the word has the row's digits. -/
theorem slice_of_selects {r : OpcodeRow} {op : Word} (h : r.selects op = true) (start len : Nat)
    (hmask : (r.mask.extractLsb' start len).toNat = 2 ^ len - 1) :
    (op.extractLsb' start len).toNat = (r.pattern.extractLsb' start len).toNat := by
  have hand : op &&& r.mask = r.pattern := of_decide_eq_true h
  have hones : r.mask.extractLsb' start len = BitVec.allOnes len :=
    BitVec.eq_of_toNat_eq (hmask.trans BitVec.toNat_allOnes.symm)
  rw [← hand, slice_and, hones, BitVec.and_allOnes]

/-- A word that the row of an instruction selects is the encoding of an instruction of that row. -/
theorem encode_of_selects {i : Instr} {op : Word} (h : (opcodeRow i).selects op = true) :
    ∃ j, encode j = op ∧ j.wellFormed = true ∧ opcodeRow j = opcodeRow i := by
  have family := slice_of_selects h 12 4
  have digit := slice_of_selects h 0 4
  have low := slice_of_selects h 0 8
  have whole := slice_of_selects h 0 16
  cases i <;> dsimp only [opcodeRow] at family digit low whole
  case cls => exact ⟨.cls, BitVec.eq_of_toNat_eq (by simpa [encode] using (whole rfl).symm), rfl, rfl⟩
  case ret => exact ⟨.ret, BitVec.eq_of_toNat_eq (by simpa [encode] using (whole rfl).symm), rfl, rfl⟩
  case jp => exact ⟨.jp (fieldNNN op), formatA_of_fields (family rfl) (by decide), rfl, rfl⟩
  case call => exact ⟨.call (fieldNNN op), formatA_of_fields (family rfl) (by decide), rfl, rfl⟩
  case seI => exact ⟨.seI (fieldX op) (fieldNN op), formatI_of_fields (family rfl) (by decide), rfl, rfl⟩
  case sneI => exact ⟨.sneI (fieldX op) (fieldNN op), formatI_of_fields (family rfl) (by decide), rfl, rfl⟩
  case seR => exact ⟨.seR (fieldX op) (fieldY op), formatR_of_fields (family rfl) (digit rfl) (by decide), rfl, rfl⟩
  case ldI => exact ⟨.ldI (fieldX op) (fieldNN op), formatI_of_fields (family rfl) (by decide), rfl, rfl⟩
  case addI => exact ⟨.addI (fieldX op) (fieldNN op), formatI_of_fields (family rfl) (by decide), rfl, rfl⟩
  case ldR => exact ⟨.ldR (fieldX op) (fieldY op), formatR_of_fields (family rfl) (digit rfl) (by decide), rfl, rfl⟩
  case orR => exact ⟨.orR (fieldX op) (fieldY op), formatR_of_fields (family rfl) (digit rfl) (by decide), rfl, rfl⟩
  case andR => exact ⟨.andR (fieldX op) (fieldY op), formatR_of_fields (family rfl) (digit rfl) (by decide), rfl, rfl⟩
  case xorR => exact ⟨.xorR (fieldX op) (fieldY op), formatR_of_fields (family rfl) (digit rfl) (by decide), rfl, rfl⟩
  case addR => exact ⟨.addR (fieldX op) (fieldY op), formatR_of_fields (family rfl) (digit rfl) (by decide), rfl, rfl⟩
  case sub => exact ⟨.sub (fieldX op) (fieldY op), formatR_of_fields (family rfl) (digit rfl) (by decide), rfl, rfl⟩
  case shr => exact ⟨.shr (fieldX op) (fieldY op), formatR_of_fields (family rfl) (digit rfl) (by decide), rfl, rfl⟩
  case subn => exact ⟨.subn (fieldX op) (fieldY op), formatR_of_fields (family rfl) (digit rfl) (by decide), rfl, rfl⟩
  case shl => exact ⟨.shl (fieldX op) (fieldY op), formatR_of_fields (family rfl) (digit rfl) (by decide), rfl, rfl⟩
  case sneR => exact ⟨.sneR (fieldX op) (fieldY op), formatR_of_fields (family rfl) (digit rfl) (by decide), rfl, rfl⟩
  case ldIdx => exact ⟨.ldIdx (fieldNNN op), formatA_of_fields (family rfl) (by decide), rfl, rfl⟩
  case jpV0 => exact ⟨.jpV0 (fieldNNN op), formatA_of_fields (family rfl) (by decide), rfl, rfl⟩
  case rnd => exact ⟨.rnd (fieldX op) (fieldNN op), formatI_of_fields (family rfl) (by decide), rfl, rfl⟩
  case drw =>
    exact ⟨.drw (fieldX op) (fieldY op) (fieldN op).toNat, formatD_of_fields (family rfl) (by decide),
      decide_eq_true (fieldN op).isLt, rfl⟩
  case skp => exact ⟨.skp (fieldX op), formatF_of_fields (family rfl) (low rfl) (by decide), rfl, rfl⟩
  case sknp => exact ⟨.sknp (fieldX op), formatF_of_fields (family rfl) (low rfl) (by decide), rfl, rfl⟩
  case ldVxDt => exact ⟨.ldVxDt (fieldX op), formatF_of_fields (family rfl) (low rfl) (by decide), rfl, rfl⟩
  case ldVxK => exact ⟨.ldVxK (fieldX op), formatF_of_fields (family rfl) (low rfl) (by decide), rfl, rfl⟩
  case ldDtVx => exact ⟨.ldDtVx (fieldX op), formatF_of_fields (family rfl) (low rfl) (by decide), rfl, rfl⟩
  case ldStVx => exact ⟨.ldStVx (fieldX op), formatF_of_fields (family rfl) (low rfl) (by decide), rfl, rfl⟩
  case addIdx => exact ⟨.addIdx (fieldX op), formatF_of_fields (family rfl) (low rfl) (by decide), rfl, rfl⟩
  case ldF => exact ⟨.ldF (fieldX op), formatF_of_fields (family rfl) (low rfl) (by decide), rfl, rfl⟩
  case ldB => exact ⟨.ldB (fieldX op), formatF_of_fields (family rfl) (low rfl) (by decide), rfl, rfl⟩
  case stRegs => exact ⟨.stRegs (fieldX op), formatF_of_fields (family rfl) (low rfl) (by decide), rfl, rfl⟩
  case ldRegs => exact ⟨.ldRegs (fieldX op), formatF_of_fields (family rfl) (low rfl) (by decide), rfl, rfl⟩

/-- A row of the map selects only words that decode to an instruction of that row. -/
theorem decode_of_selects {r : OpcodeRow} {op : Word} (hr : r ∈ opcodeRows) (h : r.selects op = true) :
    ∃ j, decode op = .instr j ∧ opcodeRow j = r := by
  obtain ⟨i, -, rfl⟩ := List.mem_map.1 hr
  obtain ⟨j, rfl, hwf, hrow⟩ := encode_of_selects h
  exact ⟨j, decode_encode j hwf, hrow⟩

/-! ### An instruction's own row (R96) -/

open Laws in
/-- The row of an instruction selects its encoding: the family FixedBits, for every instruction. -/
theorem opcodeRow_selects_encode : ∀ i : Instr, (opcodeRow i).selects (encode i) = true
  | .cls => FixedBits.cls
  | .ret => FixedBits.ret
  | .jp nnn => FixedBits.jp nnn
  | .call nnn => FixedBits.call nnn
  | .seI x nn => FixedBits.seI x nn
  | .sneI x nn => FixedBits.sneI x nn
  | .seR x y => FixedBits.seR x y
  | .ldI x nn => FixedBits.ldI x nn
  | .addI x nn => FixedBits.addI x nn
  | .ldR x y => FixedBits.ldR x y
  | .orR x y => FixedBits.orR x y
  | .andR x y => FixedBits.andR x y
  | .xorR x y => FixedBits.xorR x y
  | .addR x y => FixedBits.addR x y
  | .sub x y => FixedBits.sub x y
  | .shr x y => FixedBits.shr x y
  | .subn x y => FixedBits.subn x y
  | .shl x y => FixedBits.shl x y
  | .sneR x y => FixedBits.sneR x y
  | .ldIdx nnn => FixedBits.ldIdx nnn
  | .jpV0 nnn => FixedBits.jpV0 nnn
  | .rnd x nn => FixedBits.rnd x nn
  | .drw x y n => FixedBits.drw x y n
  | .skp x => FixedBits.skp x
  | .sknp x => FixedBits.sknp x
  | .ldVxDt x => FixedBits.ldVxDt x
  | .ldVxK x => FixedBits.ldVxK x
  | .ldDtVx x => FixedBits.ldDtVx x
  | .ldStVx x => FixedBits.ldStVx x
  | .addIdx x => FixedBits.addIdx x
  | .ldF x => FixedBits.ldF x
  | .ldB x => FixedBits.ldB x
  | .stRegs x => FixedBits.stRegs x
  | .ldRegs x => FixedBits.ldRegs x

/-- Operands play no part in the row: each constructor's row stands in the map. -/
theorem opcodeRow_mem_opcodeRows (i : Instr) : opcodeRow i ∈ opcodeRows := by
  cases i <;> simp [opcodeRows, onePerRow, opcodeRow]

theorem opcodeRows_nodup : opcodeRows.Nodup := by decide

/-- The map selects a word that decodes by the row of its instruction and by no other. -/
theorem filter_selects_of_decode {op : Word} {i : Instr} (h : decode op = .instr i) :
    opcodeRows.filter (fun r => r.selects op) = [opcodeRow i] := by
  have hself : (opcodeRow i).selects op = true := (encodeOfDecode op i h).1 ▸ opcodeRow_selects_encode i
  have honly : ∀ r ∈ opcodeRows, r.selects op = (r == opcodeRow i) := by
    intro r hr
    rw [Bool.eq_iff_iff, beq_iff_eq]
    constructor
    · intro hsel
      obtain ⟨j, hj, rfl⟩ := decode_of_selects hr hsel
      cases h.symm.trans hj
      rfl
    · rintro rfl
      exact hself
  rw [List.filter_congr honly, List.filter_beq,
    List.count_eq_one_of_mem opcodeRows_nodup (opcodeRow_mem_opcodeRows i)]
  rfl

/-! ### What the decoder calls unknown (R94, R97) -/

/-- An unknown opcode carries the word itself. -/
theorem word_of_decode_unknown {op w : Word} (h : decode op = .unknownOpcode w) : w = op := by
  simp only [decode, decodeFamily0, decodeZeroNibble, decodeFamily8, decodeFamilyE, decodeFamilyF] at h
  repeat' split at h
  all_goals cases h
  all_goals rfl

/-- Settles O14: a selecting row gives the instruction, so an unknown opcode has none and any other word one. -/
theorem decodeAgreesWithOpcodeMap : Obligations.DecodeAgreesWithOpcodeMap := by
  unfold Obligations.DecodeAgreesWithOpcodeMap
  refine ⟨rfl, fun op => ?_⟩
  split
  case h_1 i h => exact filter_selects_of_decode h
  case h_2 w h =>
    refine ⟨word_of_decode_unknown h, List.filter_eq_nil_iff.2 fun r hr hsel => ?_⟩
    obtain ⟨j, hj, -⟩ := decode_of_selects hr hsel
    cases h.symm.trans hj

theorem decodeFamily0_eq_unknown_iff {op : Word} :
    decodeFamily0 op = .unknownOpcode op ↔ op.toNat ≠ 0x00E0 ∧ op.toNat ≠ 0x00EE := by
  have hcls : op = 0x00E0#16 ↔ op.toNat = 0x00E0 := BitVec.toNat_inj.symm
  have hret : op = 0x00EE#16 ↔ op.toNat = 0x00EE := BitVec.toNat_inj.symm
  simp only [decodeFamily0, hcls, hret]
  split_ifs <;> simp_all

theorem decodeZeroNibble_eq_unknown_iff {op : Word} {i : Instr} :
    decodeZeroNibble op i = .unknownOpcode op ↔ op.toNat % 16 ≠ 0 := by
  have hzero : fieldN op = 0x0#4 ↔ op.toNat % 16 = 0 := by rw [← BitVec.toNat_inj, toNat_fieldN]; rfl
  simp only [decodeZeroNibble, hzero]
  split_ifs <;> simp_all

theorem decodeFamily8_eq_unknown_iff {op : Word} :
    decodeFamily8 op = .unknownOpcode op ↔ op.toNat % 16 ∈ [8, 9, 0xA, 0xB, 0xC, 0xD, 0xF] := by
  have hlt : op.toNat % 16 < 16 := Nat.mod_lt _ (by decide)
  simp only [decodeFamily8, toNat_fieldN]
  generalize op.toNat % 16 = n at hlt
  interval_cases n <;> simp

theorem decodeFamilyE_eq_unknown_iff {op : Word} :
    decodeFamilyE op = .unknownOpcode op ↔ op.toNat % 256 ∉ [0x9E, 0xA1] := by
  simp only [decodeFamilyE, toNat_fieldNN]
  split <;> simp_all

theorem decodeFamilyF_eq_unknown_iff {op : Word} :
    decodeFamilyF op = .unknownOpcode op ↔
      op.toNat % 256 ∉ [0x07, 0x0A, 0x15, 0x18, 0x1E, 0x29, 0x33, 0x55, 0x65] := by
  simp only [decodeFamilyF, toNat_fieldNN]
  split <;> simp_all

/-- Settles O15: one family at a time, six of the sixteen having unknown opcodes. -/
theorem unknownOpcodesAreTheTable : Obligations.UnknownOpcodesAreTheTable := by
  unfold Obligations.UnknownOpcodesAreTheTable
  intro op
  have hlt : op.toNat / 4096 < 16 := Nat.div_lt_of_lt_mul op.isLt
  simp only [decode, toNat_fieldFamily]
  generalize op.toNat / 4096 = family at hlt
  interval_cases family <;>
    simp [decodeFamily0_eq_unknown_iff, decodeZeroNibble_eq_unknown_iff, decodeFamily8_eq_unknown_iff,
      decodeFamilyE_eq_unknown_iff, decodeFamilyF_eq_unknown_iff]

/-- Settles O16: eleven words are encodings, and the twelfth stands in the table of unknown opcodes. -/
theorem specWordsDecode : Obligations.SpecWordsDecode := by
  unfold Obligations.SpecWordsDecode
  have hunknown : decode 0x5121#16 = .unknownOpcode 0x5121#16 :=
    (unknownOpcodesAreTheTable 0x5121#16).2 (.inr (.inl (by decide)))
  exact ⟨decode_encode .cls rfl, decode_encode .ret rfl, decode_encode (.jp 0xABC#12) rfl,
    decode_encode (.seI 1 0x42#8) rfl, decode_encode (.addR 0 1) rfl, decode_encode (.rnd 1 0x0F#8) rfl,
    decode_encode (.ldIdx 0x300#12) rfl, decode_encode (.stRegs 2) rfl, decode_encode (.drw 0 1 2) rfl,
    decode_encode (.skp 1) rfl, decode_encode (.ldVxK 1) rfl, hunknown⟩

end Sys2Proof
end

section
/-! What an instruction does, said once: it raises the fault that the table of faults gives it, and without one leaves
`effect`. The obligations over all instructions follow from this (spec/10_state.md, spec/60_exceptions.md R210). -/

namespace Sys2Proof.Machine

open Sys2Proof.Claims

/-! ### The effect of an instruction that does not fault -/

/-- The bytes that the sprite and the block load read: `n` of them from I upward. -/
def bytesAtIndex (s : State) (n : Nat) : List Byte := (List.range n).map fun k => Memory.peek s.mem (s.index.toNat + k)

/-- What DXYN draws over a framebuffer, and whether any pixel changed. -/
def drawn (x y : Reg) (n : Nat) (s : State) (fb : Framebuffer) : Framebuffer × Bool :=
  drawRows ((readReg s x).toNat % 64) ((readReg s y).toNat % 32) (bytesAtIndex s n) (fb, false)

/-- The level of the key that a byte names; a byte above 15 names none, and no effect asks for it. -/
def keyLevel (s : State) (a : Byte) : Bool := isPressed s (Fin.ofNat 16 a.toNat)

/-- The state that an instruction leaves when it does not fault, as updates of the fields it writes (`exec_eq` ties it
to `exec`). Where the instruction faults, as RET does on an empty stack, nothing is claimed of it. -/
def effect (i : Instr) (s : State) : State :=
  match i with
  | .cls => s.setFb clearPixels
  | .ret => (s.setStack s.stack.tail).setPc (s.stack.headD 0)
  | .jp nnn => s.setPc (absAddress nnn)
  | .call nnn => (s.setStack (s.pc :: s.stack)).setPc (absAddress nnn)
  | .seI x nn => s.setPc (if readReg s x = nn then s.pc + 2 else s.pc)
  | .sneI x nn => s.setPc (if readReg s x ≠ nn then s.pc + 2 else s.pc)
  | .seR x y => s.setPc (if readReg s x = readReg s y then s.pc + 2 else s.pc)
  | .ldI x nn => writeReg x nn s
  | .addI x nn => writeReg x (readReg s x + nn) s
  | .ldR x y => writeReg x (readReg s y) s
  | .orR x y => writeReg x (readReg s x ||| readReg s y) s
  | .andR x y => writeReg x (readReg s x &&& readReg s y) s
  | .xorR x y => writeReg x (readReg s x ^^^ readReg s y) s
  | .addR x y => resultThenFlag x (readReg s x + readReg s y) (carryOut (readReg s x) (readReg s y)) s
  | .sub x y => flagThenResult x (readReg s x - readReg s y) (noBorrow (readReg s x) (readReg s y)) s
  | .shr x _ => flagThenResult x (readReg s x >>> 1) (lowBit (readReg s x)) s
  | .subn x y => flagThenResult x (readReg s y - readReg s x) (noBorrow (readReg s y) (readReg s x)) s
  | .shl x _ => flagThenResult x (readReg s x <<< 1) (highBit (readReg s x)) s
  | .sneR x y => s.setPc (if readReg s x ≠ readReg s y then s.pc + 2 else s.pc)
  | .ldIdx nnn => s.setIndex (absAddress nnn)
  | .jpV0 nnn => s.setPc (indexedAddress nnn (readReg s 0))
  | .rnd x nn => writeReg x (nn &&& Config.randomByte s.draws) (s.setDraws (s.draws + 1))
  | .drw x y n => writeFlag (drawn x y n s s.fb).2 (s.setFb (drawn x y n s s.fb).1)
  | .skp x => s.setPc (if keyLevel s (readReg s x) then s.pc + 2 else s.pc)
  | .sknp x => s.setPc (if keyLevel s (readReg s x) then s.pc else s.pc + 2)
  | .ldVxDt x => writeReg x s.dt s
  | .ldVxK x => (s.setWaitReg x).setHalted true
  | .ldDtVx x => s.setDt (readReg s x)
  | .ldStVx x => s.setSt (readReg s x)
  | .addIdx x =>
    (writeFlag (indexOverflow s.index (readReg s x)) s).setIndex
      (BitVec.ofNat 16 ((s.index.toNat + (readReg s x).toNat) % 0x1000))
  | .ldF x => s.setIndex (fontAddress (readReg s x))
  | .ldB x => s.setMem (Memory.pokeBytes s.mem s.index.toNat (bcdDigits (readReg s x)))
  | .stRegs x => s.setMem (Memory.pokeBytes s.mem s.index.toNat (regsUpTo s x))
  | .ldRegs x => s.setV (writeRegsFrom s.v 0 (bytesAtIndex s (x.val + 1)))

/-! ### Every instruction faults by the table or leaves its effect -/

/-- A key skip under the model's policy: on the level of a key number, a fault otherwise (R190, R191). -/
theorem keySkip_fault_eq (want : Bool) (x : Reg) (s : State) :
    keySkip .fault want x s =
      (if 15 < reg s x then some (.badKeyIndex (readReg s x)) else none : Option Fault).elim
        (.next (s.setPc (if keyLevel s (readReg s x) = want then s.pc + 2 else s.pc))) .fault := by
  have hreg : reg s x = (readReg s x).toNat := rfl
  obtain ⟨h, hskip⟩ | ⟨h, hskip⟩ := keySkip_cases .fault want x s
  · have hkey : Fin.ofNat 16 (readReg s x).toNat = ⟨(readReg s x).toNat, h⟩ := Fin.ext (Nat.mod_eq_of_lt h)
    rw [hskip, if_neg (by omega), skipIf_eq, keyLevel, hkey]
    simp only [beq_iff_eq, Option.elim_none]
  · rw [hskip, if_pos (by omega)]
    rfl

/-- A store at I: past the end of memory the fault of the table, else the bytes put there (R163, R164). -/
theorem storeAtIndex_eq {bs : List Byte} {n : Nat} (hlen : bs.length = n + 1) (s : State) :
    storeAtIndex bs s =
      (if 4095 < idx s + n then some (.outOfBounds (max (idx s) 4096)) else none : Option Fault).elim
        (.next (s.setMem (Memory.pokeBytes s.mem s.index.toNat bs))) .fault := by
  have hsize : Config.memSize = 4096 := rfl
  have hidx : idx s = s.index.toNat := rfl
  have hne : bs ≠ [] := List.ne_nil_of_length_eq_add_one hlen
  obtain ⟨h, hstore⟩ | ⟨-, h, hstore⟩ := storeAtIndex_cases bs s
  · have hfits := h.resolve_left hne
    rw [hstore, if_neg (by omega)]
    rfl
  · rw [hstore, if_pos (by omega)]
    rfl

/-- The one account of `exec`: the fault of the table, or the effect. -/
theorem exec_eq (i : Instr) (s : State) : exec i s = (faultOf i s).elim (.next (effect i s)) .fault := by
  have hsize : Config.memSize = 4096 := rfl
  have hidx : idx s = s.index.toNat := rfl
  cases i with
  | ret =>
    obtain ⟨top, rest, hstack, h⟩ | ⟨hstack, h⟩ := execRet_cases s
    · simp [exec, h, faultOf, effect, hstack]
    · simp [exec, h, faultOf, hstack, instrAddr]
  | call nnn =>
    obtain ⟨hlen, h⟩ | ⟨hlen, h⟩ := execCall_cases nnn s
    · simp [exec, h, faultOf, effect, Nat.not_le.2 hlen]
    · simp [exec, h, faultOf, hlen, instrAddr]
  | seI x nn => simp [exec, execSeI, skipIf_eq, faultOf, effect]
  | sneI x nn => simp [exec, execSneI, skipIf_eq, faultOf, effect]
  | seR x y => simp [exec, execSeR, skipIf_eq, faultOf, effect]
  | sneR x y => simp [exec, execSneR, skipIf_eq, faultOf, effect]
  | skp x => exact keySkip_fault_eq true x s
  | sknp x =>
    have hup : (if keyLevel s (readReg s x) then s.pc else s.pc + 2) =
        if keyLevel s (readReg s x) = false then s.pc + 2 else s.pc := by cases keyLevel s (readReg s x) <;> rfl
    rw [effect, hup]
    exact keySkip_fault_eq false x s
  | ldB x => exact storeAtIndex_eq (bcdDigits_length _) s
  | stRegs x => exact storeAtIndex_eq (regsUpTo_length s x) s
  | ldRegs x =>
    obtain ⟨hfits, h⟩ | ⟨hout, h⟩ := execLdRegs_cases x s
    · have : ¬ 4095 < idx s + x.val := by omega
      simp [exec, h, faultOf, effect, this, bytesAtIndex]
    · have : 4095 < idx s + x.val := by omega
      simp [exec, h, faultOf, this]
  | drw x y n =>
    obtain ⟨hfits, h⟩ | ⟨hn, hout, h⟩ := execDrw_cases x y n s
    · have : ¬ (0 < n ∧ 4095 < idx s + n - 1) := by omega
      simp only [exec, h, faultOf, if_neg this, Option.elim_none, effect, drawn, bytesAtIndex]
    · have : 0 < n ∧ 4095 < idx s + n - 1 := by omega
      simp only [exec, h, faultOf, if_pos this, Option.elim_some]
  | _ => rfl

theorem exec_eq_next_iff {i : Instr} {s t : State} : exec i s = .next t ↔ faultOf i s = none ∧ effect i s = t := by
  rw [exec_eq]
  cases faultOf i s <;> simp

theorem exec_of_faultOf_none {i : Instr} {s : State} (h : faultOf i s = none) : exec i s = .next (effect i s) :=
  exec_eq_next_iff.2 ⟨h, rfl⟩

/-- Settles O26: without a fault of the table there is a next state. -/
theorem instructionsRaiseExactlyTheirFault : Obligations.InstructionsRaiseExactlyTheirFault := by
  unfold Obligations.InstructionsRaiseExactlyTheirFault
  intro i s k
  rw [exec_eq]
  cases faultOf i s <;> simp

theorem exec_of_faultOf_some {i : Instr} {s : State} {k : Fault} (h : faultOf i s = some k) : exec i s = .fault k :=
  (instructionsRaiseExactlyTheirFault i s k).2 h

theorem exec_ne_refused (i : Instr) (s : State) (r : Refusal) : exec i s ≠ .refused r := by
  rw [exec_eq]
  cases faultOf i s <;> simp

/-- Settles O27: a step answers a fault, the next state of a halted or unknown step, or what `exec` answers. -/
theorem nothingIsRefused : Obligations.NothingIsRefused := by
  unfold Obligations.NothingIsRefused
  refine ⟨exec_ne_refused, fun s r => ?_⟩
  cases hfault : s.fault with
  | some k => simp [step_of_marked hfault]
  | none =>
    rw [step_of_unmarked hfault]
    obtain ⟨-, h⟩ | ⟨-, k, -, h⟩ | ⟨-, op, i, -, -, h⟩ | ⟨-, op, op', -, -, h⟩ := cpuStep_cases (deliverDue s)
    · simp [h]
    · simp [h]
    · exact h ▸ exec_ne_refused i _ r
    · simp [h]

/-! ### The V registers (R20, R22) -/

theorem regsKept_resultThenFlag (x : Reg) (b : Byte) (f : Bool) (s : State) :
    RegsKept [x, 15] s (resultThenFlag x b f s) := by
  intro r hr
  rw [List.mem_cons, List.mem_singleton, not_or] at hr
  exact readReg_resultThenFlag_other hr.1 hr.2 b f s

theorem regsKept_flagThenResult (x : Reg) (b : Byte) (f : Bool) (s : State) :
    RegsKept [x, 15] s (flagThenResult x b f s) := by
  intro r hr
  rw [List.mem_cons, List.mem_singleton, not_or] at hr
  exact readReg_flagThenResult_other hr.1 hr.2 b f s

/-- A block load into the registers gives `V[k]` the k-th byte and leaves those past the block. -/
theorem readReg_setV_writeRegsFrom (s : State) (bs : List Byte) (r : Reg) :
    readReg (s.setV (writeRegsFrom s.v 0 bs)) r = if h : r.val < bs.length then bs[r.val] else readReg s r := by
  have hget := writeRegsFrom_getElem s.v 0 bs r.val r.isLt
  simp only [Nat.zero_le, true_and, Nat.zero_add, Nat.sub_zero] at hget
  exact hget

@[simp] theorem bytesAtIndex_length (s : State) (n : Nat) : (bytesAtIndex s n).length = n := by simp [bytesAtIndex]

theorem bytesAtIndex_getElem (s : State) (n k : Nat) (h : k < (bytesAtIndex s n).length) :
    (bytesAtIndex s n)[k] = Memory.peek s.mem (s.index.toNat + k) := by
  simp [bytesAtIndex]

/-- The registers that a block load does not reach. -/
theorem readReg_blockLoad_above {x r : Reg} (h : x < r) (s : State) :
    readReg (effect (.ldRegs x) s) r = readReg s r := by
  have hlt : x.val < r.val := h
  rw [effect, readReg_setV_writeRegsFrom, dif_neg]
  rw [bytesAtIndex_length]
  omega

/-- Settles O29: the destinations of an instruction are the registers that its effect writes. -/
theorem registersOutsideDestinationsKeep : Obligations.RegistersOutsideDestinationsKeep := by
  unfold Obligations.RegistersOutsideDestinationsKeep
  intro i s t h
  obtain ⟨-, rfl⟩ := exec_eq_next_iff.1 h
  cases i with
  | ldI x | addI x | ldR x | orR x | andR x | xorR x | ldVxDt x => exact (onlyRegs_writeReg x _ s).1
  | rnd x => exact (onlyRegs_writeReg x _ (s.setDraws (s.draws + 1))).1
  | addR x => exact regsKept_resultThenFlag x _ _ s
  | sub x | shr x | subn x | shl x => exact regsKept_flagThenResult x _ _ s
  | addIdx x => exact (onlyRegs_writeReg vf _ s).1
  | drw x y n => exact (onlyRegs_writeReg vf _ (s.setFb _)).1
  | ldRegs x =>
    intro r hr
    have habove : x < r := by simpa [destinations] using hr
    exact readReg_blockLoad_above habove s
  | _ => exact fun _ _ => rfl

/-! ### pc (R23) -/

/-- 16 bits hold NNN + V[0] whole: at most 4350 (R123). -/
theorem toNat_indexedAddress (nnn : Addr12) (b : Byte) : (indexedAddress nnn b).toNat = nnn.toNat + b.toNat := by
  have hn := nnn.isLt
  have hb := b.isLt
  rw [indexedAddress, BitVec.toNat_ofNat, Nat.mod_eq_of_lt (by omega)]

/-- Settles O30: the effect of each instruction sets pc as listed, or not at all. -/
theorem everyInstructionLeavesPcAsListed : Obligations.EveryInstructionLeavesPcAsListed := by
  unfold Obligations.EveryInstructionLeavesPcAsListed
  intro i s t h
  obtain ⟨hnone, rfl⟩ := exec_eq_next_iff.1 h
  cases i with
  | ret =>
    cases hstack : s.stack with
    | nil => simp [faultOf, hstack] at hnone
    | cons top rest => simp [pcLeft, effect, hstack]
  | jp nnn | call nnn => exact toNat_absAddress nnn
  | jpV0 nnn => exact toNat_indexedAddress nnn _
  | skp x => exact ite_eq_or_eq _ _ _
  | sknp x => exact (ite_eq_or_eq _ _ _).symm
  | _ => rfl

/-! ### The other pieces of state (R24 to R31) -/

section
variable (i : Instr) (s : State)

theorem effect_index :
    (effect i s).index = s.index ∨ (∃ nnn, i = .ldIdx nnn) ∨ (∃ x, i = .addIdx x) ∨ ∃ x, i = .ldF x := by
  cases i with
  | ldIdx nnn => exact .inr (.inl ⟨nnn, rfl⟩)
  | addIdx x => exact .inr (.inr (.inl ⟨x, rfl⟩))
  | ldF x => exact .inr (.inr (.inr ⟨x, rfl⟩))
  | _ => exact .inl rfl

theorem effect_dt : (effect i s).dt = s.dt ∨ ∃ x, i = .ldDtVx x := by
  cases i with
  | ldDtVx x => exact .inr ⟨x, rfl⟩
  | _ => exact .inl rfl

theorem effect_st : (effect i s).st = s.st ∨ ∃ x, i = .ldStVx x := by
  cases i with
  | ldStVx x => exact .inr ⟨x, rfl⟩
  | _ => exact .inl rfl

theorem effect_mem : (effect i s).mem = s.mem ∨ (∃ x, i = .ldB x) ∨ ∃ x, i = .stRegs x := by
  cases i with
  | ldB x => exact .inr (.inl ⟨x, rfl⟩)
  | stRegs x => exact .inr (.inr ⟨x, rfl⟩)
  | _ => exact .inl rfl

theorem effect_stack : (effect i s).stack = s.stack ∨ i = .ret ∨ ∃ nnn, i = .call nnn := by
  cases i with
  | ret => exact .inr (.inl rfl)
  | call nnn => exact .inr (.inr ⟨nnn, rfl⟩)
  | _ => exact .inl rfl

theorem effect_halted_waitReg :
    ((effect i s).halted = s.halted ∧ (effect i s).waitReg = s.waitReg) ∨ ∃ x, i = .ldVxK x := by
  cases i with
  | ldVxK x => exact .inr ⟨x, rfl⟩
  | _ => exact .inl ⟨rfl, rfl⟩

theorem effect_fb : (effect i s).fb = s.fb ∨ i = .cls ∨ ∃ x y n, i = .drw x y n := by
  cases i with
  | cls => exact .inr (.inl rfl)
  | drw x y n => exact .inr (.inr ⟨x, y, n, rfl⟩)
  | _ => exact .inl rfl

theorem effect_draws : (effect i s).draws = s.draws ∨ ∃ x nn, i = .rnd x nn := by
  cases i with
  | rnd x nn => exact .inr ⟨x, nn, rfl⟩
  | _ => exact .inl rfl

/-- Keys, fault mark, diagnostic and schedule are written by no instruction. -/
theorem effect_keeps_host_fields :
    (effect i s).keys = s.keys ∧ (effect i s).fault = s.fault ∧ (effect i s).diag = s.diag ∧
    (effect i s).schedule = s.schedule := by
  cases i <;> exact ⟨rfl, rfl, rfl, rfl⟩

end

/-- Memory that is the same data reads alike. -/
theorem memKept_of_mem_eq {s t : State} (h : t.mem = s.mem) : MemKept s t := fun a => congrArg (memRead · a) h

/-- Settles O31: field by field, the effects that write it. -/
theorem stateIsWrittenByItsInstructionsOnly : Obligations.StateIsWrittenByItsInstructionsOnly := by
  unfold Obligations.StateIsWrittenByItsInstructionsOnly
  intro i s t h
  obtain ⟨-, rfl⟩ := exec_eq_next_iff.1 h
  exact ⟨effect_index i s, effect_dt i s, effect_st i s, (effect_mem i s).imp_left memKept_of_mem_eq,
    effect_stack i s, effect_halted_waitReg i s, effect_fb i s, effect_draws i s, effect_keeps_host_fields i s⟩

end Sys2Proof.Machine
end

section
/-! The obligations about memory as data, reset and load (spec/10_state.md R40, spec/20_memory.md R69, R75, R76). -/

namespace Sys2Proof.Machine

open Sys2Proof.Claims

/-! ### Reads after a block write -/

/-- A read outside the block is not moved by it, inside the address space or not. -/
theorem memRead_pokeBytes_outside (m : Memory) {a b : Nat} (bs : List Byte) (h : b < a ∨ a + bs.length ≤ b) :
    memRead (Memory.pokeBytes m a bs) b = memRead m b := by
  rw [memRead, memRead, Memory.peek_pokeBytes_outside m a b bs h]

/-- A byte of the block reads back. -/
theorem memRead_pokeBytes_inside (m : Memory) {a k : Nat} {bs : List Byte} (hk : k < bs.length)
    (ha : a + bs.length ≤ Config.memSize) : memRead (Memory.pokeBytes m a bs) (a + k) = .ok bs[k] := by
  rw [memRead_ok (by omega), Memory.peek_pokeBytes_inside m a k bs hk]

/-! ### The canonical form -/

/-- Settles O7: a block that is written fits, and writing within the address space keeps the form. -/
theorem blockWritesKeepCanonicalMemory : Obligations.BlockWritesKeepCanonicalMemory := by
  unfold Obligations.BlockWritesKeepCanonicalMemory
  intro m m' a bs hwf h
  obtain ⟨hfits, hok⟩ | ⟨-, -, herror⟩ := writeBlock_cases m a bs
  · cases hok.symm.trans h
    rcases hfits with rfl | hfits
    · exact hwf
    · exact Memory.wf_pokeBytes bs hfits hwf
  · cases herror.symm.trans h

/-- Below its first address a canonical memory reads as at reset. -/
theorem Memory.peek_of_forall_lt {m : Memory} {a : Nat} (h : ∀ c ∈ m, a < c.1) : Memory.peek m a = resetByte a := by
  induction m with
  | nil => rfl
  | cons c m ih =>
    have hne : c.1 ≠ a := (h c List.mem_cons_self).ne'
    rw [Memory.peek, if_neg hne]
    exact ih fun d hd => h d (List.mem_cons_of_mem c hd)

/-- A canonical memory differs from reset at the address of its first cell. -/
theorem Memory.peek_head_ne {a : Nat} {v : Byte} {m : Memory} (h : Memory.wf ((a, v) :: m) = true) :
    Memory.peek ((a, v) :: m) a ≠ resetByte a := by
  rw [Memory.peek, if_pos rfl]
  exact ((Memory.wf_cons_iff a v m).1 h).2.1

/-- A canonical memory whose first cell lies above `a` reads as at reset at `a`. -/
theorem Memory.peek_below_head {a b : Nat} {v : Byte} {m : Memory} (hab : a < b)
    (h : Memory.wf ((b, v) :: m) = true) : Memory.peek ((b, v) :: m) a = resetByte a := by
  obtain ⟨-, -, habove, -⟩ := (Memory.wf_cons_iff b v m).1 h
  refine Memory.peek_of_forall_lt fun c hc => ?_
  rcases List.mem_cons.1 hc with rfl | hc
  · exact hab
  · exact hab.trans (habove c hc)

/-- Canonical memories that hold the same byte everywhere list the same cells: the first cells have the same address,
since the lower of two would differ from reset in one memory only. -/
theorem Memory.eq_of_peek_eq {m m' : Memory} (hm : Memory.wf m = true) (hm' : Memory.wf m' = true)
    (h : ∀ a, Memory.peek m a = Memory.peek m' a) : m = m' := by
  induction m generalizing m' with
  | nil =>
    cases m' with
    | nil => rfl
    | cons d m' => exact absurd (h d.1).symm (Memory.peek_head_ne hm')
  | cons c m ih =>
    obtain ⟨a, v⟩ := c
    cases m' with
    | nil => exact absurd (h a) (Memory.peek_head_ne hm)
    | cons d m' =>
      obtain ⟨b, w⟩ := d
      rcases lt_trichotomy a b with hab | rfl | hba
      · exact absurd ((h a).trans (Memory.peek_below_head hab hm')) (Memory.peek_head_ne hm)
      · obtain ⟨-, -, habove, hwf⟩ := (Memory.wf_cons_iff a v m).1 hm
        obtain ⟨-, -, habove', hwf'⟩ := (Memory.wf_cons_iff a w m').1 hm'
        have hv : v = w := by simpa [Memory.peek] using h a
        have htail : ∀ e, Memory.peek m e = Memory.peek m' e := by
          intro e
          by_cases he : a = e
          · rw [← he, Memory.peek_of_forall_lt habove, Memory.peek_of_forall_lt habove']
          · simpa [Memory.peek, he] using h e
        rw [hv, ih hwf hwf' htail]
      · exact absurd ((h b).symm.trans (Memory.peek_below_head hba hm)) (Memory.peek_head_ne hm')

/-- No cell of a canonical memory lies outside the address space, so there it reads as at reset. -/
theorem Memory.peek_outside {m : Memory} (h : Memory.wf m = true) {a : Nat} (ha : Config.memSize ≤ a) :
    Memory.peek m a = resetByte a := by
  induction m with
  | nil => rfl
  | cons c m ih =>
    obtain ⟨hlt, -, -, hwf⟩ := (Memory.wf_cons_iff c.1 c.2 m).1 h
    have hne : c.1 ≠ a := (hlt.trans_le ha).ne
    rw [Memory.peek, if_neg hne, ih hwf]

/-- Settles O8: reads that agree inside the address space make the bytes agree everywhere. -/
theorem canonicalMemoriesThatReadAlikeAreEqual : Obligations.CanonicalMemoriesThatReadAlikeAreEqual := by
  unfold Obligations.CanonicalMemoriesThatReadAlikeAreEqual
  intro m m' hm hm' h
  refine Memory.eq_of_peek_eq hm hm' fun a => ?_
  by_cases ha : a < Config.memSize
  · have hread := h a
    rw [memRead_ok ha, memRead_ok ha] at hread
    exact Except.ok.inj hread
  · rw [Memory.peek_outside hm (not_lt.1 ha), Memory.peek_outside hm' (not_lt.1 ha)]

/-! ### Reset and load -/

theorem font_length : font.length = 80 := rfl

/-- At reset memory reads the font table, then zeros (R40, R61). -/
theorem memRead_reset {a : Nat} (h : a ≤ 4095) : memRead State.reset.mem a = .ok (font.getD a 0) :=
  memRead_ok (Nat.lt_succ_of_le h)

/-- Settles O1: the registers, pixels and keys are constant vectors, memory the font table and zeros. -/
theorem resetStateMatchesTable : Obligations.ResetStateMatchesTable := by
  unfold Obligations.ResetStateMatchesTable
  refine ⟨rfl, ?zeros, ?glyphs, ?registers, rfl, rfl, rfl, rfl, rfl, rfl, ?pixels, ?keys, rfl⟩
  case zeros =>
    intro a hfont ha
    rw [memRead_reset ha, List.getD_eq_default _ _ (font_length.trans_le hfont)]
  case glyphs =>
    intro a ha
    have hfont : a < font.length := ha.trans_eq font_length.symm
    exact ⟨hfont, by rw [memRead_reset (by omega), List.getD_eq_getElem _ _ hfont]⟩
  case registers => exact fun x => Vector.getElem_replicate x.isLt
  case pixels => exact getPixel_clearPixels
  case keys => exact fun k => Vector.getElem_replicate k.isLt

/-- Settles O3: each bound holds of the values at reset. -/
theorem resetIsBounded : Obligations.ResetIsBounded where
  index_le := Nat.zero_le _
  pc_le := by decide
  stack_entries := by intro e he; cases he
  stack_length := Nat.zero_le _
  mem_wf := reset_mem_wf

theorem launch_of_le {rom : List Byte} (h : rom.length ≤ 3584) :
    launch rom = .next (State.reset.setMem (Memory.pokeBytes State.reset.mem Config.romBase rom)) :=
  if_pos (decide_eq_true h)

theorem launch_of_gt {rom : List Byte} (h : 3584 < rom.length) : launch rom = .refused (.romTooLarge rom.length) := by
  have hlarge : ¬ romWellFormed rom = true := fun hwf => absurd (of_decide_eq_true hwf) (Nat.not_le.2 h)
  exact if_neg hlarge

/-- A launch is a load of a ROM that fits. -/
theorem launch_eq_next_iff {rom : List Byte} {s : State} :
    launch rom = .next s ↔
      rom.length ≤ 3584 ∧ s = State.reset.setMem (Memory.pokeBytes State.reset.mem Config.romBase rom) := by
  by_cases h : rom.length ≤ 3584
  · simp [launch_of_le h, h, eq_comm]
  · simp [launch_of_gt (Nat.lt_of_not_le h), h]

/-- Settles O2: a ROM of at most 3584 bytes ends within memory, so its block write reads back. -/
theorem launchLoadsTheRomOrRefuses : Obligations.LaunchLoadsTheRomOrRefuses := by
  unfold Obligations.LaunchLoadsTheRomOrRefuses
  refine ⟨fun rom h => ?fits, fun rom h => launch_of_gt h, ?empty⟩
  case fits =>
    have hsize : Config.romBase + rom.length ≤ Config.memSize := Nat.add_le_add_left h 0x200
    exact ⟨_, launch_of_le h, fun k hk => memRead_pokeBytes_inside _ hk hsize,
      fun b hb => memRead_pokeBytes_outside _ rom hb, rfl⟩
  case empty => exact ⟨_, launch_of_le (Nat.zero_le _), by decide, by decide⟩

end Sys2Proof.Machine
end

section
/-! The obligations about the bounds of R41 (spec/10_state.md): every step keeps them, so every run of a launched ROM
does. -/

namespace Sys2Proof.Machine

open Sys2Proof.Claims

/-! ### The state an instruction begins in (R101, R104) -/

theorem beginInstr_deliverDue (s : State) :
    beginInstr (deliverDue s) = ((deliverDue s).setPc (s.pc + 2)).setDiag none := by
  rw [beginInstr, advancePc, deliverDue_pc]

/-- A fetch that succeeds is from an address at most 4094. -/
theorem pc_le_of_fetch_ok {s : State} {op : Word} (h : fetch s = .ok op) : s.pc.toNat ≤ 4094 := by
  have hsize : Config.memSize = 4096 := rfl
  by_contra hgt
  cases h.symm.trans (fetch_error (by omega))

/-- The advance of pc after a fetch does not wrap. -/
theorem toNat_advancedPc {s : State} {op : Word} (h : fetch s = .ok op) : (s.pc + 2).toNat = s.pc.toNat + 2 := by
  have := pc_le_of_fetch_ok h
  exact BitVec.toNat_add_of_lt (y := 2#16) (by simp; omega)

/-! ### What keeps the bounds -/

/-- The bounds speak of four fields only, and of pc only from above. -/
theorem Bounded.of_fields {s t : State} (h : Bounded s) (hindex : t.index = s.index) (hpc : t.pc.toNat ≤ 0x10FE)
    (hstack : t.stack = s.stack) (hmem : t.mem = s.mem) : Bounded t where
  index_le := hindex ▸ h.index_le
  pc_le := hpc
  stack_entries := hstack ▸ h.stack_entries
  stack_length := hstack ▸ h.stack_length
  mem_wf := hmem ▸ h.mem_wf

section
variable {i : Instr} {s : State}

/-- R41(a): only ANNN, FX1E and FX29 write I, with at most 12 bits. -/
theorem effect_index_le (h : Bounded s) : (effect i s).index.toNat ≤ 0xFFF := by
  cases i with
  | ldIdx nnn =>
    have hn := nnn.isLt
    exact (toNat_absAddress nnn).trans_le (by omega)
  | addIdx x =>
    have hmod : (BitVec.ofNat 16 ((s.index.toNat + (readReg s x).toNat) % 0x1000)).toNat ≤ 0xFFF := by
      rw [BitVec.toNat_ofNat]
      omega
    exact hmod
  | ldF x =>
    have hb := (readReg s x).isLt
    exact (toNat_fontAddress _).trans_le (by omega)
  | _ => exact h.index_le

/-- A skip from an advanced pc stays far below the bound of pc. -/
theorem skipped_pc_le (hpc : s.pc.toNat ≤ 4096) (c : Prop) [Decidable c] :
    (if c then s.pc + 2 else s.pc).toNat ≤ 0x10FE := by
  split
  · bv_omega
  · omega

/-- R41(b): the highest pc is the highest target of BNNN. -/
theorem effect_pc_le (h : Bounded s) (hpc : s.pc.toNat ≤ 4096) (hnone : faultOf i s = none) :
    (effect i s).pc.toNat ≤ 0x10FE := by
  cases i with
  | ret =>
    cases hstack : s.stack with
    | nil => simp [faultOf, hstack] at hnone
    | cons top rest =>
      have htop := (h.stack_entries top (by simp [hstack])).2
      simp only [effect, hstack, List.headD_cons, State.setPc_pc]
      omega
  | jp nnn | call nnn =>
    have hn := nnn.isLt
    exact (toNat_absAddress nnn).trans_le (by omega)
  | jpV0 nnn =>
    have hn := nnn.isLt
    have hb := (readReg s 0).isLt
    exact (toNat_indexedAddress nnn _).trans_le (by omega)
  | seI | sneI | seR | sneR | skp => exact skipped_pc_le hpc _
  | sknp x =>
    have hswap : (if keyLevel s (readReg s x) = true then s.pc else s.pc + 2) =
        if ¬ keyLevel s (readReg s x) = true then s.pc + 2 else s.pc := (ite_not ..).symm
    rw [effect, State.setPc_pc, hswap]
    exact skipped_pc_le hpc _
  | _ => exact h.pc_le

/-- R41(c): the only entry pushed is the advanced pc of a call. -/
theorem effect_stack_entries (h : Bounded s) (hpc : 2 ≤ s.pc.toNat ∧ s.pc.toNat ≤ 4096) :
    ∀ e ∈ (effect i s).stack, 2 ≤ e.toNat ∧ e.toNat ≤ 4096 := by
  cases i with
  | ret => exact fun e he => h.stack_entries e (List.mem_of_mem_tail he)
  | call nnn =>
    intro e he
    rcases List.mem_cons.1 he with rfl | he
    · exact hpc
    · exact h.stack_entries e he
  | _ => exact h.stack_entries

/-- R41(d): a call pushes below the bound only. -/
theorem effect_stack_length (h : Bounded s) (hnone : faultOf i s = none) : (effect i s).stack.length ≤ stackLimit := by
  cases i with
  | ret => exact List.length_tail.trans_le ((Nat.sub_le ..).trans h.stack_length)
  | call nnn =>
    have hroom : ¬ 16 ≤ s.stack.length := by simpa [faultOf] using hnone
    exact Nat.succ_le_of_lt (Nat.lt_of_not_le hroom)
  | _ => exact h.stack_length

/-- FX33 and FX55 store within the address space, and nothing else stores. -/
theorem effect_mem_wf (h : Bounded s) (hnone : faultOf i s = none) : Memory.wf (effect i s).mem = true := by
  have hsize : Config.memSize = 4096 := rfl
  have hidx : idx s = s.index.toNat := rfl
  cases i with
  | ldB x =>
    have hfits : idx s + 2 ≤ 4095 := by simpa [faultOf] using hnone
    exact Memory.wf_pokeBytes _ (by rw [bcdDigits_length]; omega) h.mem_wf
  | stRegs x =>
    have hfits : idx s + x.val ≤ 4095 := by simpa [faultOf] using hnone
    exact Memory.wf_pokeBytes _ (by rw [regsUpTo_length]; omega) h.mem_wf
  | _ => exact h.mem_wf

theorem effect_bounded (h : Bounded s) (hpc : 2 ≤ s.pc.toNat ∧ s.pc.toNat ≤ 4096) (hnone : faultOf i s = none) :
    Bounded (effect i s) where
  index_le := effect_index_le h
  pc_le := effect_pc_le h hpc.2 hnone
  stack_entries := effect_stack_entries h hpc
  stack_length := effect_stack_length h hnone
  mem_wf := effect_mem_wf h hnone

end

/-- A halted step writes a V register and `halted` at most, neither of them bounded. -/
theorem haltedStep_bounded {s : State} (h : Bounded s) : Bounded (haltedStep s) := by
  obtain ⟨k, -, hstep⟩ | ⟨-, hstep⟩ := haltedStep_cases s
  · rw [hstep]
    exact h.of_fields rfl h.pc_le rfl rfl
  · rwa [hstep]

/-- A CPU step: whatever it fetched, pc was at most 4094, so the advanced pc is in 2..4096. -/
theorem cpuStep_bounded {s t : State} (h : Bounded s) (hstep : cpuStep s = .next t) : Bounded t := by
  obtain ⟨-, hs⟩ | ⟨-, k, -, hs⟩ | ⟨-, op, i, hfetch, -, hs⟩ | ⟨-, op, op', hfetch, -, hs⟩ := cpuStep_cases s
  · cases hs.symm.trans hstep
    have hhalted := haltedStep_bounded h
    exact hhalted.of_fields rfl hhalted.pc_le rfl rfl
  · cases hs.symm.trans hstep
  · have hle := pc_le_of_fetch_ok hfetch
    have hadv : (beginInstr s).pc.toNat = s.pc.toNat + 2 := toNat_advancedPc hfetch
    obtain ⟨hnone, rfl⟩ := exec_eq_next_iff.1 (hs.symm.trans hstep)
    exact effect_bounded (h.of_fields rfl (by omega) rfl rfl) (by omega) hnone
  · have hle := pc_le_of_fetch_ok hfetch
    have hadv : (reportUnknown op s).pc.toNat = s.pc.toNat + 2 := toNat_advancedPc hfetch
    cases hs.symm.trans hstep
    exact h.of_fields rfl (by omega) rfl rfl

/-- Settles O4: the due events reach no bounded field, and the CPU step after them keeps the bounds. -/
theorem stepKeepsBounded : Obligations.StepKeepsBounded := by
  unfold Obligations.StepKeepsBounded
  intro s t h hstep
  cases hfault : s.fault with
  | some k => cases (step_of_marked hfault).symm.trans hstep
  | none =>
    have hdue : Bounded (deliverDue s) := h.of_fields (by simp) (by simpa using h.pc_le) (by simp) (by simp)
    exact cpuStep_bounded hdue ((step_of_unmarked hfault).symm.trans hstep)

/-! ### Runs -/

/-- A run of one more step is a step and then the run, on any machine behind the host's interface. -/
theorem run_succ_eq_next_iff (M : Host.Core) (n : Nat) (s t : M.State) :
    M.run (n + 1) s = .next t ↔ ∃ u, M.step s = .next u ∧ M.run n u = .next t := by
  rw [Host.Core.run]
  cases M.step s <;> simp

theorem reaches_zero_iff {s t : State} : Reaches 0 s t ↔ s = t := ⟨Host.Outcome.next.inj, congrArg _⟩

theorem reaches_succ_iff {n : Nat} {s t : State} : Reaches (n + 1) s t ↔ ∃ u, step s = .next u ∧ Reaches n u t :=
  run_succ_eq_next_iff Sys2Proof.core n s t

/-- What every step keeps, every run keeps. -/
theorem Reaches.keeps {P : State → Prop} {n : Nat} {s t : State} (h : Reaches n s t)
    (hstep : ∀ s t, P s → step s = .next t → P t) (hs : P s) : P t := by
  induction n generalizing s with
  | zero => exact reaches_zero_iff.1 h ▸ hs
  | succ n ih =>
    obtain ⟨u, hu, hrest⟩ := reaches_succ_iff.1 h
    exact ih hrest (hstep s u hs hu)

/-- A launched ROM is data in memory over the reset state. -/
theorem launch_bounded {rom : List Byte} {s : State} (h : launch rom = .next s) : Bounded s := by
  obtain ⟨hlen, rfl⟩ := launch_eq_next_iff.1 h
  exact { resetIsBounded with
    mem_wf := Memory.wf_pokeBytes rom (Nat.add_le_add_left hlen 0x200) reset_mem_wf }

/-- Settles O5: the launch state is bounded under any schedule, and every step keeps the bounds. -/
theorem everyRunOfEveryRomStaysBounded : Obligations.EveryRunOfEveryRomStaysBounded := by
  unfold Obligations.EveryRunOfEveryRomStaysBounded
  intro rom s t events n hlaunch hrun
  have hs := launch_bounded hlaunch
  exact hrun.keeps stepKeepsBounded (hs.of_fields rfl hs.pc_le rfl rfl)

end Sys2Proof.Machine
end

section
/-! The obligations about the cycle, the host's events and what a fault leaves (spec/30_encoding.md R98, R101,
spec/44_keypad_timers.md R193, spec/60_exceptions.md R219 to R223). -/

namespace Sys2Proof.Machine

open Sys2Proof.Claims

/-! ### Fetch and the CPU step, case by case -/

theorem fetch_of_memRead {s : State} {hi lo : Byte} (hhi : memRead s.mem s.pc.toNat = .ok hi)
    (hlo : memRead s.mem (s.pc.toNat + 1) = .ok lo) : fetch s = .ok (wordOfBytes hi lo) := by
  simp only [fetch, hhi, hlo]

section
variable {s : State}

theorem cpuStep_of_halted (h : s.halted = true) : cpuStep s = .next ((haltedStep s).setDiag none) := if_pos h

theorem cpuStep_of_fetch_error {k : Fault} (h : s.halted = false) (hfetch : fetch s = .error k) :
    cpuStep s = .fault k := by
  simp [cpuStep, h, hfetch, orRaise, raise]

theorem cpuStep_of_instr {op : Word} {i : Instr} (h : s.halted = false) (hfetch : fetch s = .ok op)
    (hdecode : decode op = .instr i) : cpuStep s = exec i (beginInstr s) := by
  simp [cpuStep, h, hfetch, orRaise, hdecode]

theorem cpuStep_of_unknown {op w : Word} (h : s.halted = false) (hfetch : fetch s = .ok op)
    (hdecode : decode op = .unknownOpcode w) : cpuStep s = .next (reportUnknown op s) := by
  simp [cpuStep, h, hfetch, orRaise, hdecode]

/-- A step of a machine that can fetch runs the instruction it fetches after the due events (R101, R219). -/
theorem step_of_instr {op : Word} {i : Instr} (hfault : s.fault = none) (hhalted : s.halted = false)
    (hfetch : fetch s = .ok op) (hdecode : decode op = .instr i) :
    step s = exec i (((deliverDue s).setPc (s.pc + 2)).setDiag none) := by
  rw [step_of_unmarked hfault, ← beginInstr_deliverDue]
  exact cpuStep_of_instr (by simpa using hhalted) (by simpa using hfetch) hdecode

end

/-- Settles O17: the two reads are the fetch. -/
theorem stepRunsDecodedInstruction : Obligations.StepRunsDecodedInstruction := by
  unfold Obligations.StepRunsDecodedInstruction
  intro s hi lo i hfault hhalted hhi hlo hdecode
  exact step_of_instr hfault hhalted (fetch_of_memRead hhi hlo) hdecode

/-- Settles O18: the report is written over the diagnostic that the instruction's start has cleared. -/
theorem unknownOpcodeOnlyAdvancesPc : Obligations.UnknownOpcodeOnlyAdvancesPc := by
  unfold Obligations.UnknownOpcodeOnlyAdvancesPc
  intro s hi lo hfault hhalted hhi hlo hdecode
  have hfetch : fetch (deliverDue s) = .ok (wordOfBytes hi lo) := by
    rw [fetch_deliverDue, fetch_of_memRead hhi hlo]
  rw [step_of_unmarked hfault, cpuStep_of_unknown (by simpa using hhalted) hfetch hdecode, reportUnknown,
    beginInstr_deliverDue, State.setDiag_setDiag]

/-! ### What a fault leaves (R222, R223) -/

/-- Settles O24: the mark is looked at before anything else. -/
theorem faultedMachineTakesNoStep : Obligations.FaultedMachineTakesNoStep := by
  unfold Obligations.FaultedMachineTakesNoStep
  intro s k hfault
  exact ⟨step_of_marked hfault, by simp [afterStep, hfault]⟩

theorem afterStep_of_fault {s : State} {k : Fault} (hfault : s.fault = none) (hstep : step s = .fault k) :
    afterStep s = faulted k (deliverDue s) := by
  rw [step_of_unmarked hfault] at hstep
  simp [afterStep, hfault, hstep]

/-- Settles O25: what is left is decided by the fetch, and the fetch by whether pc is above 4094. -/
theorem faultLeavesNoPartialEffect : Obligations.FaultLeavesNoPartialEffect := by
  unfold Obligations.FaultLeavesNoPartialEffect
  intro s k hfault hstep
  have hsize : Config.memSize = 4096 := rfl
  rw [afterStep_of_fault hfault hstep]
  by_cases hpc : 4094 < s.pc.toNat
  · have hfetch : fetch (deliverDue s) = .error _ := (fetch_deliverDue s).trans (fetch_error (by omega))
    have hkeep : (deliverDue s).setPc s.pc = deliverDue s := by rw [← deliverDue_pc s, State.setPc_self]
    simp only [faulted, hfetch, recordFault, if_pos hpc, hkeep]
  · have hfetch : fetch (deliverDue s) = .ok _ := (fetch_deliverDue s).trans (fetch_ok (by omega))
    simp only [faulted, hfetch, recordFault, if_neg hpc, beginInstr_deliverDue]

/-- Settles O10: the first of the two addresses of the fetch that lies outside is 4096 or pc. -/
theorem fetchBeyondMemoryFaults : Obligations.FetchBeyondMemoryFaults := by
  unfold Obligations.FetchBeyondMemoryFaults
  intro s hfault hhalted hpc
  have hsize : Config.memSize = 4096 := rfl
  have hfirst : max s.pc.toNat Config.memSize = if s.pc.toNat = 4095 then 4096 else s.pc.toNat := by
    split <;> omega
  have hstep : step s = .fault (.outOfBounds (if s.pc.toNat = 4095 then 4096 else s.pc.toNat)) := by
    rw [step_of_unmarked hfault, ← hfirst]
    exact cpuStep_of_fetch_error (by simpa using hhalted) ((fetch_deliverDue s).trans (fetch_error (by omega)))
  have hleft := faultLeavesNoPartialEffect s _ hfault hstep
  rw [if_pos hpc] at hleft
  exact ⟨hstep, by rw [hleft]; rfl, by rw [hleft]; rfl⟩

/-! ### Events (R219, R226, R231) -/

theorem deliver_dt (e : HostEvent) (s : State) : (deliver e s).dt.toNat = s.dt.toNat - [e].count .tick := by
  cases e with
  | tick => exact toNat_tickTimer s.dt
  | press k => rfl
  | release k => rfl

theorem deliver_st (e : HostEvent) (s : State) : (deliver e s).st.toNat = s.st.toNat - [e].count .tick := by
  cases e with
  | tick => exact toNat_tickTimer s.st
  | press k => rfl
  | release k => rfl

theorem isPressed_setKeys_set (s : State) (j k : Key) (b : Bool) :
    isPressed (s.setKeys (s.keys.set j b)) k = if j = k then b else isPressed s k := by
  simp [isPressed, Vector.getElem_set, Fin.ext_iff]

theorem isPressed_deliver (e : HostEvent) (s : State) (k : Key) :
    isPressed (deliver e s) k = keyAfter k (isPressed s k) [e] := by
  cases e with
  | tick => rfl
  | press j => exact isPressed_setKeys_set s j k true
  | release j => exact isPressed_setKeys_set s j k false

theorem deliverAll_dt (es : List HostEvent) (s : State) :
    (deliverAll es s).dt.toNat = s.dt.toNat - es.count .tick := by
  induction es generalizing s with
  | nil => rfl
  | cons e es ih => rw [deliverAll, ih, deliver_dt, Nat.sub_sub, ← List.count_append, List.singleton_append]

theorem deliverAll_st (es : List HostEvent) (s : State) :
    (deliverAll es s).st.toNat = s.st.toNat - es.count .tick := by
  induction es generalizing s with
  | nil => rfl
  | cons e es ih => rw [deliverAll, ih, deliver_st, Nat.sub_sub, ← List.count_append, List.singleton_append]

theorem isPressed_deliverAll (es : List HostEvent) (s : State) (k : Key) :
    isPressed (deliverAll es s) k = keyAfter k (isPressed s k) es := by
  induction es generalizing s with
  | nil => rfl
  | cons e es ih =>
    rw [deliverAll, ih, isPressed_deliver]
    rfl

theorem deliverDue_of_nil {s : State} (h : s.schedule = []) : deliverDue s = s := by
  rw [deliverDue, h]

theorem deliverDue_of_cons {s : State} {es : List HostEvent} {later : List (List HostEvent)}
    (h : s.schedule = es :: later) : deliverDue s = deliverAll es (s.setSchedule later) := by
  rw [deliverDue, h]

/-- Settles O19: event by event, each timer and each key; the rest is the form of a delivery. -/
theorem dueEventsReachOnlyTimersAndKeys : Obligations.DueEventsReachOnlyTimersAndKeys := by
  unfold Obligations.DueEventsReachOnlyTimersAndKeys
  refine fun s => ⟨deliverDue_of_nil, fun es later h => ?_⟩
  rw [deliverDue_of_cons h]
  obtain ⟨dt, st, ks, hform⟩ := deliverAll_form es (s.setSchedule later)
  refine ⟨deliverAll_dt es _, deliverAll_st es _, isPressed_deliverAll es _, ?_⟩
  rw [hform]
  rfl

/-! ### Waiting for a key (R193) -/

@[simp] theorem readReg_deliverDue (s : State) (r : Reg) : readReg (deliverDue s) r = readReg s r := by
  rw [readReg, readReg, deliverDue_v]

theorem toNat_keyByte (k : Key) : (keyByte k).toNat = k.val := by
  have hk := k.isLt
  rw [keyByte, BitVec.toNat_ofNat, Nat.mod_eq_of_lt (by omega)]

theorem step_of_halted {s : State} (hfault : s.fault = none) (hhalted : s.halted = true) :
    step s = .next ((haltedStep (deliverDue s)).setDiag none) := by
  rw [step_of_unmarked hfault]
  exact cpuStep_of_halted (by simpa using hhalted)

theorem haltedStep_of_poll_none {s : State} (h : pollAnyPressed s = none) : haltedStep s = s := by
  rw [haltedStep, h]

theorem haltedStep_of_poll_some {s : State} {k : Key} (h : pollAnyPressed s = some k) :
    haltedStep s = (writeReg s.waitReg (keyByte k) s).setHalted false := by
  rw [haltedStep, h]

/-- Without a key down a halted step waits on. -/
theorem step_of_halted_keys_up {s : State} (hfault : s.fault = none) (hhalted : s.halted = true)
    (hup : ∀ k, isPressed (deliverDue s) k = false) : step s = .next ((deliverDue s).setDiag none) := by
  rw [step_of_halted hfault hhalted, haltedStep_of_poll_none (pollAnyPressed_eq_none_iff.2 hup)]

/-- Settles O22: the poll after the due events decides, and it answers the lowest key that is down. -/
theorem haltedStepWaitsForAKey : Obligations.HaltedStepWaitsForAKey := by
  unfold Obligations.HaltedStepWaitsForAKey
  intro s hfault hhalted
  refine ⟨step_of_halted_keys_up hfault hhalted, fun k hdown hbelow => ?_⟩
  have hpoll : pollAnyPressed (deliverDue s) = some k := pollAnyPressed_eq_some_iff.2 ⟨hdown, hbelow⟩
  have hstep := step_of_halted hfault hhalted
  rw [haltedStep_of_poll_some hpoll, deliverDue_waitReg] at hstep
  have hkey : reg (writeReg s.waitReg (keyByte k) (deliverDue s)) s.waitReg = k.val := by
    rw [reg, readReg_writeReg_self, toNat_keyByte]
  have hregs : RegsKept [s.waitReg] s (writeReg s.waitReg (keyByte k) (deliverDue s)) := fun r hr =>
    ((onlyRegs_writeReg s.waitReg _ (deliverDue s)).1 r hr).trans (readReg_deliverDue s r)
  exact ⟨_, hstep, hkey, hregs, memKept_of_mem_eq (deliverDue_mem s), rfl, deliverDue_pc s, rfl⟩

/-- Only a press brings a key down. -/
theorem keyAfter_of_no_press {k : Key} {es : List HostEvent} (h : HostEvent.press k ∉ es) :
    keyAfter k false es = false := by
  induction es with
  | nil => rfl
  | cons e es ih =>
    have hhead : keyAfter k false [e] = false := by
      cases e with
      | tick => rfl
      | press j =>
        have hne : j ≠ k := fun hjk => h (hjk ▸ List.mem_cons_self)
        exact if_neg hne
      | release j => exact ite_self _
    have hcons : keyAfter k false (e :: es) = keyAfter k (keyAfter k false [e]) es := rfl
    rw [hcons, hhead]
    exact ih fun hmem => h (List.mem_cons_of_mem e hmem)

/-- No key comes down by a delivery without presses. -/
theorem isPressed_deliverDue_of_no_press {s : State} {k : Key} (hup : isPressed s k = false)
    (hnone : ∀ es ∈ s.schedule, HostEvent.press k ∉ es) : isPressed (deliverDue s) k = false := by
  cases h : s.schedule with
  | nil => rwa [deliverDue_of_nil h]
  | cons es later =>
    have hes : HostEvent.press k ∉ es := hnone es (by simp [h])
    have hkeys : isPressed (s.setSchedule later) k = false := hup
    rw [deliverDue_of_cons h, isPressed_deliverAll, hkeys, keyAfter_of_no_press hes]

/-- Settles O23: by induction on the number of steps, each of which is a wait that brings no key down. -/
theorem waitLastsWithoutKeys : Obligations.WaitLastsWithoutKeys := by
  unfold Obligations.WaitLastsWithoutKeys
  intro n
  induction n with
  | zero => exact fun s _ hhalted _ _ => ⟨s, rfl, hhalted, rfl, rfl, rfl, fun _ _ => rfl, fun _ => rfl⟩
  | succ n ih =>
    intro s hfault hhalted hup hnone
    have hup' : ∀ k, isPressed (deliverDue s) k = false := fun k =>
      isPressed_deliverDue_of_no_press (hup k) fun es hes => hnone es hes k
    have hnone' : ∀ es ∈ (deliverDue s).schedule, ∀ k, HostEvent.press k ∉ es := by
      intro es hes
      rw [deliverDue_schedule] at hes
      exact hnone es (List.mem_of_mem_tail hes)
    obtain ⟨t, hrun, hhalted', hwait, hpc, hfb, hregs, hmem⟩ :=
      ih ((deliverDue s).setDiag none) (by simpa using hfault) (by simpa using hhalted) hup' hnone'
    refine ⟨t, reaches_succ_iff.2 ⟨_, step_of_halted_keys_up hfault hhalted hup', hrun⟩, hhalted', ?_, ?_, ?_, ?_, ?_⟩
    · simpa using hwait
    · simpa using hpc
    · simpa using hfb
    · exact fun r hr => (hregs r hr).trans (readReg_deliverDue s r)
    · exact fun a => (hmem a).trans (memKept_of_mem_eq (deliverDue_mem s) a)

/-! ### A jump to itself (R262), a call and its return (R120, R122) -/

/-- Settles O28: the jump puts back the pc that the fetch advanced. -/
theorem selfJumpIsAFixedPoint : Obligations.SelfJumpIsAFixedPoint := by
  unfold Obligations.SelfJumpIsAFixedPoint
  rintro s ⟨hhalted, hfault, nnn, hpc, hfetch⟩
  have hback : effect (.jp nnn) (((deliverDue s).setPc (s.pc + 2)).setDiag none) = (deliverDue s).setDiag none := by
    rw [effect, ← hpc, ← deliverDue_pc s]
    rfl
  have hstep := step_of_instr hfault hhalted hfetch (decode_encode (.jp nnn) rfl)
  rw [exec_of_faultOf_none rfl, hback] at hstep
  have hfetch' : fetch ((deliverDue s).setDiag none) = fetch s := fetch_congr (by simp) (by simp)
  exact ⟨hstep, by simpa using hhalted, by simpa using hfault, nnn, by simpa using hpc, hfetch'.trans hfetch⟩

/-- Settles O38: the first step pushes the advanced pc, and the second pops it. -/
theorem callThenReturnComesBack : Obligations.CallThenReturnComesBack := by
  unfold Obligations.CallThenReturnComesBack
  intro nnn s hfault hhalted hroom hfetch hhi hlo
  have hcallOk : faultOf (.call nnn) (((deliverDue s).setPc (s.pc + 2)).setDiag none) = none :=
    if_neg (by simpa using hroom)
  have hcall := step_of_instr hfault hhalted hfetch (decode_encode (.call nnn) rfl)
  rw [exec_of_faultOf_none hcallOk] at hcall
  generalize ht : effect (.call nnn) (((deliverDue s).setPc (s.pc + 2)).setDiag none) = t at hcall
  have hpc : t.pc.toNat = nnn.toNat := by rw [← ht]; exact toNat_absAddress nnn
  have hstack : t.stack = (s.pc + 2) :: s.stack := by rw [← ht]; simp [effect]
  have hmem : t.mem = s.mem := by rw [← ht]; simp [effect]
  have hv : t.v = s.v := by rw [← ht]; simp [effect]
  have hfault' : t.fault = none := by rw [← ht]; simpa [effect] using hfault
  have hhalted' : t.halted = false := by rw [← ht]; simpa [effect] using hhalted
  have hfetch' : fetch t = .ok (wordOfBytes 0x00#8 0xEE#8) :=
    fetch_of_memRead (by rw [hmem, hpc, hhi]) (by rw [hmem, hpc, hlo])
  have hretOk : faultOf .ret (((deliverDue t).setPc (t.pc + 2)).setDiag none) = none :=
    if_neg (by simp [hstack])
  have hret := step_of_instr hfault' hhalted' hfetch' (decode_encode .ret rfl)
  rw [exec_of_faultOf_none hretOk] at hret
  refine ⟨t, _, hcall, hret, ?pc, ?stack, ?regs, ?mem⟩
  case pc => simp [effect, hstack]
  case stack => simp [effect, hstack]
  case regs => exact fun r _ => by simp [effect, readReg, hv]
  case mem => exact memKept_of_mem_eq (by simp [effect, hmem])

end Sys2Proof.Machine
end

section
/-! The obligations about the pixel engine (spec/43_display.md R181 to R183): one pixel, one sprite, one sprite drawn
twice. -/

namespace Sys2Proof.Machine

open Sys2Proof.Claims

/-! ### One pixel (R181) -/

/-- Settles O51: the named pixel takes the XOR, any other is left, and the answer is the bit. -/
theorem setPixelXorsOnePixel : Obligations.SetPixelXorsOnePixel := by
  unfold Obligations.SetPixelXorsOnePixel
  intro fb x px y py b
  refine ⟨?pixel, ?answer, setPixel_flip fb x y b⟩
  case pixel =>
    split
    case isTrue h =>
      obtain ⟨rfl, rfl⟩ := h
      exact getPixel_setPixel_self fb px py b
    case isFalse h => exact getPixel_setPixel_ne fb b (not_and_or.1 h)
  case answer =>
    rw [setPixel_flip, getPixel_setPixel_self]
    cases b <;> cases getPixel fb x y <;> rfl

/-- A framebuffer is its pixels. -/
theorem framebuffer_ext {a b : Framebuffer} (h : ∀ px py, getPixel a px py = getPixel b px py) : a = b :=
  Vector.ext fun y hy => Vector.ext fun x hx => h ⟨x, hx⟩ ⟨y, hy⟩

/-! ### One sprite (R182) -/

/-- An exclusive-or is the negation of agreement. -/
theorem xor_eq_true_iff_not_iff (a b : Bool) : (a ^^ b) = true ↔ ¬ (a = true ↔ b = true) := by
  cases a <;> cases b <;> decide

/-- One sprite row toggles, on its line, the pixels that its set bits land on. -/
theorem getPixel_drawColumns_iff (row : Byte) (x0 : Nat) (y : Fin 32) (acc : Framebuffer × Bool) (px : Fin 64) :
    getPixel (drawColumns row x0 y 0 8 acc).1 px y = true ↔
      ¬ (getPixel acc.1 px y = true ↔ ∃ c, c < 8 ∧ spriteBit row c = true ∧ wrapX (x0 + c) = px) := by
  by_cases hlands : ∃ d, d < 8 ∧ wrapX (x0 + d) = px
  · obtain ⟨d, hd, rfl⟩ := hlands
    have honly : (∃ c, c < 8 ∧ spriteBit row c = true ∧ wrapX (x0 + c) = wrapX (x0 + d)) ↔ spriteBit row d = true := by
      constructor
      · rintro ⟨c, hc, hbit, hcd⟩
        exact wrapX_injective (by omega) (by omega) hcd ▸ hbit
      · exact fun hbit => ⟨d, hd, hbit, rfl⟩
    rw [honly, drawColumns_touched row x0 y 0 8 acc d (by omega) (by omega), xor_eq_true_iff_not_iff]
  · have hnone : ¬ ∃ c, c < 8 ∧ spriteBit row c = true ∧ wrapX (x0 + c) = px :=
      fun ⟨c, hc, _, hcx⟩ => hlands ⟨c, hc, hcx⟩
    rw [drawColumns_untouched row x0 y 0 8 acc px y (.inr fun d _ hd hdx => hlands ⟨d, by omega, hdx⟩)]
    simp only [hnone, iff_false, not_not]

/-- A sprite of at most 32 rows toggles the pixels that its set bits land on. -/
theorem getPixel_drawRows_iff (x0 y0 : Nat) {rows : List Byte} (hlen : rows.length ≤ 32) (acc : Framebuffer × Bool)
    (px : Fin 64) (py : Fin 32) :
    getPixel (drawRows x0 y0 rows acc).1 px py = true ↔
      ¬ (getPixel acc.1 px py = true ↔ ∃ r, ∃ hr : r < rows.length, wrapY (y0 + r) = py ∧
        ∃ c, c < 8 ∧ spriteBit rows[r] c = true ∧ wrapX (x0 + c) = px) := by
  by_cases hline : ∃ q, q < rows.length ∧ wrapY (y0 + q) = py
  · obtain ⟨q, hq, rfl⟩ := hline
    have honly : (∃ r, ∃ hr : r < rows.length, wrapY (y0 + r) = wrapY (y0 + q) ∧
        ∃ c, c < 8 ∧ spriteBit rows[r] c = true ∧ wrapX (x0 + c) = px) ↔
        ∃ c, c < 8 ∧ spriteBit rows[q] c = true ∧ wrapX (x0 + c) = px := by
      constructor
      · rintro ⟨r, hr, hrq, hbit⟩
        obtain rfl := wrapY_injective (by omega) (by omega) hrq
        exact hbit
      · exact fun hbit => ⟨q, hq, rfl, hbit⟩
    obtain ⟨acc', hsame, hdraw⟩ := drawRows_line x0 y0 rows acc px q hq hlen
    rw [honly, hdraw, getPixel_drawColumns_iff, hsame]
  · have hnone : ¬ ∃ r, ∃ hr : r < rows.length, wrapY (y0 + r) = py ∧
        ∃ c, c < 8 ∧ spriteBit rows[r] c = true ∧ wrapX (x0 + c) = px :=
      fun ⟨r, hr, hry, _⟩ => hline ⟨r, hr, hry⟩
    rw [drawRows_untouched x0 y0 rows acc px py fun r hr hry => hline ⟨r, hr, hry⟩]
    simp only [hnone, iff_false, not_not]

theorem wrapX_eq_iff {n : Nat} {px : Fin 64} : wrapX n = px ↔ px.val = n % 64 := by
  rw [Fin.ext_iff, eq_comm, wrapX, Fin.val_ofNat]

theorem wrapY_eq_iff {n : Nat} {py : Fin 32} : wrapY n = py ↔ py.val = n % 32 := by
  rw [Fin.ext_iff, eq_comm, wrapY, Fin.val_ofNat]

/-- The pixels under the sprite, by the rows that the draw reads. -/
theorem underSprite_iff {s : State} {x y : Reg} {n : Nat} (hfits : spriteFits s n) (px : Fin 64) (py : Fin 32) :
    underSprite s x y n px py ↔ ∃ r, ∃ hr : r < (bytesAtIndex s n).length, wrapY (reg s y % 32 + r) = py ∧
      ∃ c, c < 8 ∧ spriteBit (bytesAtIndex s n)[r] c = true ∧ wrapX (reg s x % 64 + c) = px := by
  simp only [bytesAtIndex_length, bytesAtIndex_getElem, wrapX_eq_iff, wrapY_eq_iff, spriteBit]
  constructor
  · rintro ⟨r, c, b, hr, hc, hb, hbit, hpx, hpy⟩
    obtain ⟨-, rfl⟩ := memRead_eq_ok_iff.1 hb
    exact ⟨r, hr, hpy, c, hc, hbit, hpx⟩
  · rintro ⟨r, hr, hpy, c, hc, hbit, hpx⟩
    have hin : idx s + r < 4096 := by
      rcases hfits with rfl | hfits
      · exact absurd hr (Nat.not_lt_zero r)
      · omega
    exact ⟨r, c, _, hr, hc, memRead_ok hin, hbit, hpx, hpy⟩

/-- VF after a draw tells whether a sprite byte is not zero, whatever the framebuffer held (R183(a)). -/
theorem drawn_flip_iff (x y : Reg) (n : Nat) (s : State) (fb : Framebuffer) :
    (drawn x y n s fb).2 = true ↔ ∃ b ∈ bytesAtIndex s n, b ≠ 0 := by
  rw [drawn, drawRows_flip]
  simp only [Bool.false_eq_true, false_or]

/-- The bytes that a sprite in memory reads, each with its address. -/
theorem mem_bytesAtIndex_iff {s : State} {n : Nat} (hfits : spriteFits s n) {b : Byte} :
    b ∈ bytesAtIndex s n ↔ ∃ r, r < n ∧ memRead s.mem (idx s + r) = .ok b := by
  simp only [bytesAtIndex, List.mem_map, List.mem_range]
  refine exists_congr fun r => and_congr_right fun hr => ?_
  have hin : idx s + r < 4096 := by
    rcases hfits with rfl | hfits
    · exact absurd hr (Nat.not_lt_zero r)
    · omega
  rw [memRead_ok hin, Except.ok.injEq]

theorem faultOf_drw_of_fits {s : State} {x y : Reg} {n : Nat} (hfits : spriteFits s n) :
    faultOf (.drw x y n) s = none := by
  refine if_neg ?_
  rintro ⟨hn, hout⟩
  rcases hfits with rfl | hfits
  · exact absurd hn (lt_irrefl 0)
  · omega

/-- Settles O52: the draw toggles by rows and columns, and its flag is that of the sprite's bytes. -/
theorem drawTogglesExactlyTheSprite : Obligations.DrawTogglesExactlyTheSprite := by
  unfold Obligations.DrawTogglesExactlyTheSprite
  intro x y n s hwf
  have hn : n < 16 := of_decide_eq_true hwf
  refine ⟨fun hfits => ?fits, fun hpos hout => exec_of_faultOf_some (if_pos ⟨hpos, hout⟩)⟩
  have hvf : reg (effect (.drw x y n) s) 15 = if (drawn x y n s s.fb).2 then 1 else 0 := by
    rw [reg, effect, writeFlag, readReg_writeReg_self, flagByte_toNat]
  have hok := exec_of_faultOf_none (faultOf_drw_of_fits (x := x) (y := y) hfits)
  refine ⟨_, hok, ?pixels, ?lit, ?dark, registersOutsideDestinationsKeep _ s _ hok, fun _ => rfl, rfl⟩
  case pixels =>
    intro px py
    rw [underSprite_iff hfits]
    exact getPixel_drawRows_iff _ _ (by rw [bytesAtIndex_length]; omega) (s.fb, false) px py
  case lit =>
    rintro ⟨r, b, hr, hread, hb⟩
    have hflip := (drawn_flip_iff x y n s s.fb).2 ⟨b, (mem_bytesAtIndex_iff hfits).2 ⟨r, hr, hread⟩, hb⟩
    rw [hvf, if_pos hflip]
  case dark =>
    intro hzero
    have hflip : ¬ (drawn x y n s s.fb).2 = true := by
      rw [drawn_flip_iff]
      rintro ⟨b, hmem, hb⟩
      obtain ⟨r, hr, hread⟩ := (mem_bytesAtIndex_iff hfits).1 hmem
      exact hb (hzero r b hr hread)
    rw [hvf, if_neg hflip]

/-! ### One sprite drawn twice (R183(c)) -/

/-- A draw reads two registers, I and memory. -/
theorem drawn_congr {s t : State} {x y : Reg} (hx : readReg t x = readReg s x) (hy : readReg t y = readReg s y)
    (hindex : t.index = s.index) (hmem : t.mem = s.mem) (n : Nat) (fb : Framebuffer) :
    drawn x y n t fb = drawn x y n s fb := by
  rw [drawn, drawn, bytesAtIndex, bytesAtIndex, hx, hy, hindex, hmem]

theorem toggle_toggle_iff (p q : Prop) : ¬ (¬ (p ↔ q) ↔ q) ↔ p := by tauto

/-- Two toggles of one pixel cancel. -/
theorem drawn_drawn (x y : Reg) {n : Nat} (hn : n < 16) (s : State) (fb : Framebuffer) :
    (drawn x y n s (drawn x y n s fb).1).1 = fb := by
  have hlen : (bytesAtIndex s n).length ≤ 32 := by rw [bytesAtIndex_length]; omega
  refine framebuffer_ext fun px py => Bool.eq_iff_iff.2 ?_
  rw [drawn, getPixel_drawRows_iff _ _ hlen, drawn, getPixel_drawRows_iff _ _ hlen]
  exact toggle_toggle_iff _ _

/-- The flag of a draw does not depend on the framebuffer it draws over. -/
theorem drawn_flip_congr (x y : Reg) (n : Nat) (s : State) (fb fb' : Framebuffer) :
    (drawn x y n s fb).2 = (drawn x y n s fb').2 := by
  rw [Bool.eq_iff_iff, drawn_flip_iff, drawn_flip_iff]

/-- Settles O53: the first draw leaves what the second one reads, coordinates other than VF included. -/
theorem drawTwiceRestores : Obligations.DrawTwiceRestores := by
  unfold Obligations.DrawTwiceRestores
  intro x y n s hwf hx hy hfits
  have hn : n < 16 := of_decide_eq_true hwf
  have hok := exec_of_faultOf_none (faultOf_drw_of_fits (x := x) (y := y) hfits)
  have hregs : RegsKept [15] s (effect (.drw x y n) s) := registersOutsideDestinationsKeep _ s _ hok
  have hsame : ∀ fb, drawn x y n (effect (.drw x y n) s) fb = drawn x y n s fb :=
    drawn_congr (hregs x (by simpa using hx)) (hregs y (by simpa using hy)) rfl rfl n
  have hok' := exec_of_faultOf_none (faultOf_drw_of_fits (s := effect (.drw x y n) s) (x := x) (y := y) hfits)
  refine ⟨_, _, hok, hok', ?restored, ?flag⟩
  case restored => exact (congrArg Prod.fst (hsame _)).trans (drawn_drawn x y hn s s.fb)
  case flag =>
    have hflip : (drawn x y n (effect (.drw x y n) s) (effect (.drw x y n) s).fb).2 = (drawn x y n s s.fb).2 := by
      rw [hsame, drawn_flip_congr]
    rw [effect, hflip]
    simp only [effect, writeFlag, readReg_writeReg_self]

end Sys2Proof.Machine
end

section
/-! The obligations that the framebuffer and the sound timer never flow back (spec/10_state.md R25, R33,
spec/43_display.md R183(a)). Both are relations between states that no part of a step tells apart. -/

namespace Sys2Proof.Machine

open Sys2Proof.Claims

/-! ### Relations that a step cannot see through -/

/-- What makes the states of a relation alike to the machine: they agree on all that decides the course of a step, and
the events, the bookkeeping of the cycle, the halted step and every effect keep the relation. -/
structure Unseen (R : State → State → Prop) : Prop where
  decides : ∀ {s u}, R s u → u.fault = s.fault ∧ u.halted = s.halted ∧ u.pc = s.pc ∧ u.mem = s.mem ∧
    u.schedule = s.schedule ∧ ∀ i, faultOf i u = faultOf i s
  setSchedule : ∀ {s u} l, R s u → R (s.setSchedule l) (u.setSchedule l)
  setPc : ∀ {s u} w, R s u → R (s.setPc w) (u.setPc w)
  setDiag : ∀ {s u} d, R s u → R (s.setDiag d) (u.setDiag d)
  deliver : ∀ {s u} e, R s u → R (deliver e s) (deliver e u)
  haltedStep : ∀ {s u}, R s u → R (haltedStep s) (haltedStep u)
  effect : ∀ {s u} i, R s u → R (effect i s) (effect i u)

/-- Two results are related when they are related next states, or the same fault or refusal. -/
inductive ResultsRelated (R : State → State → Prop) : Result → Result → Prop where
  | next {t u : State} (h : R t u) : ResultsRelated R (.next t) (.next u)
  | fault (k : Fault) : ResultsRelated R (.fault k) (.fault k)
  | refused (k : Refusal) : ResultsRelated R (.refused k) (.refused k)

section
variable {R : State → State → Prop} {s u : State}

theorem Unseen.deliverAll (hR : Unseen R) (es : List HostEvent) (h : R s u) : R (deliverAll es s) (deliverAll es u) := by
  induction es generalizing s u with
  | nil => exact h
  | cons e es ih => exact ih (hR.deliver e h)

theorem Unseen.deliverDue (hR : Unseen R) (h : R s u) : R (deliverDue s) (deliverDue u) := by
  obtain ⟨-, -, -, -, hschedule, -⟩ := hR.decides h
  cases hs : s.schedule with
  | nil => rwa [deliverDue_of_nil hs, deliverDue_of_nil (hschedule.trans hs)]
  | cons es later =>
    rw [deliverDue_of_cons hs, deliverDue_of_cons (hschedule.trans hs)]
    exact hR.deliverAll es (hR.setSchedule later h)

theorem Unseen.beginInstr (hR : Unseen R) (h : R s u) : R (beginInstr s) (beginInstr u) := by
  obtain ⟨-, -, hpc, -, -, -⟩ := hR.decides h
  rw [Machine.beginInstr, Machine.beginInstr, advancePc, advancePc, hpc]
  exact hR.setDiag none (hR.setPc _ h)

theorem Unseen.exec (hR : Unseen R) (i : Instr) (h : R s u) : ResultsRelated R (exec i s) (exec i u) := by
  obtain ⟨-, -, -, -, -, hfaultOf⟩ := hR.decides h
  rw [exec_eq, exec_eq, hfaultOf]
  cases faultOf i s with
  | none => exact .next (hR.effect i h)
  | some k => exact .fault k

theorem Unseen.cpuStep (hR : Unseen R) (h : R s u) : ResultsRelated R (cpuStep s) (cpuStep u) := by
  obtain ⟨-, hhalted, hpc, hmem, -, -⟩ := hR.decides h
  have hfetch : fetch u = fetch s := fetch_congr hmem hpc
  obtain ⟨hh, hs⟩ | ⟨hh, k, hf, hs⟩ | ⟨hh, op, i, hf, hd, hs⟩ | ⟨hh, op, w, hf, hd, hs⟩ := cpuStep_cases s
  · rw [hs, cpuStep_of_halted (hhalted.trans hh)]
    exact .next (hR.setDiag none (hR.haltedStep h))
  · rw [hs, cpuStep_of_fetch_error (hhalted.trans hh) (hfetch.trans hf)]
    exact .fault k
  · rw [hs, cpuStep_of_instr (hhalted.trans hh) (hfetch.trans hf) hd]
    exact hR.exec i (hR.beginInstr h)
  · rw [hs, cpuStep_of_unknown (hhalted.trans hh) (hfetch.trans hf) hd]
    exact .next (hR.setDiag _ (hR.beginInstr h))

/-- Steps from related states are related. -/
theorem Unseen.step (hR : Unseen R) (h : R s u) : ResultsRelated R (step s) (step u) := by
  obtain ⟨hfault, -, -, -, -, -⟩ := hR.decides h
  cases hs : s.fault with
  | some k =>
    rw [step_of_marked hs, step_of_marked (hfault.trans hs)]
    exact .fault k
  | none =>
    rw [step_of_unmarked hs, step_of_unmarked (hfault.trans hs)]
    exact hR.cpuStep (hR.deliverDue h)

end

/-! ### The framebuffer -/

/-- The second state is the first with some framebuffer. -/
def SameStateButFb (s u : State) : Prop := ∃ fb, u = s.setFb fb

/-- Only CLS and DXYN touch the framebuffer, and the flag of DXYN does not depend on it. -/
theorem effect_setFb (i : Instr) (s : State) (fb : Framebuffer) : SameStateButFb (effect i s) (effect i (s.setFb fb)) := by
  cases i with
  | cls => exact ⟨clearPixels, rfl⟩
  | drw x y n =>
    refine ⟨(drawn x y n s fb).1, ?_⟩
    have hflip := drawn_flip_congr x y n s fb s.fb
    rw [effect, effect, ← hflip]
    rfl
  | _ => exact ⟨fb, rfl⟩

theorem haltedStep_setFb (s : State) (fb : Framebuffer) : haltedStep (s.setFb fb) = (haltedStep s).setFb fb := by
  have hpoll : pollAnyPressed (s.setFb fb) = pollAnyPressed s := rfl
  rw [haltedStep, haltedStep, hpoll]
  cases pollAnyPressed s <;> rfl

theorem unseen_sameStateButFb : Unseen SameStateButFb where
  decides := by rintro s - ⟨fb, rfl⟩; exact ⟨rfl, rfl, rfl, rfl, rfl, fun i => by cases i <;> rfl⟩
  setSchedule := by rintro s - l ⟨fb, rfl⟩; exact ⟨fb, rfl⟩
  setPc := by rintro s - w ⟨fb, rfl⟩; exact ⟨fb, rfl⟩
  setDiag := by rintro s - d ⟨fb, rfl⟩; exact ⟨fb, rfl⟩
  deliver := by rintro s - e ⟨fb, rfl⟩; cases e <;> exact ⟨fb, rfl⟩
  haltedStep := by rintro s - ⟨fb, rfl⟩; exact ⟨fb, haltedStep_setFb s fb⟩
  effect := by rintro s - i ⟨fb, rfl⟩; exact effect_setFb i s fb

theorem sameButFb_of_related {r q : Result} : ResultsRelated SameStateButFb r q → SameButFb r q
  | .next h => h
  | .fault _ => rfl
  | .refused _ => rfl

/-- Settles O32: the machine tells no two framebuffers apart. -/
theorem framebufferNeverFlowsBack : Obligations.FramebufferNeverFlowsBack := by
  unfold Obligations.FramebufferNeverFlowsBack
  exact fun s fb => sameButFb_of_related (unseen_sameStateButFb.step ⟨fb, rfl⟩)

/-! ### The sound timer -/

/-- The second state is the first with some sound timer. -/
def SameStateButSt (s u : State) : Prop := ∃ b, u = s.setSt b

/-- Only FX18 touches the sound timer, and writes a V register there. -/
theorem effect_setSt (i : Instr) (s : State) (b : Byte) : SameStateButSt (effect i s) (effect i (s.setSt b)) := by
  cases i with
  | ldStVx x => exact ⟨readReg s x, rfl⟩
  | _ => exact ⟨b, rfl⟩

theorem deliver_setSt (e : HostEvent) (s : State) (b : Byte) : SameStateButSt (deliver e s) (deliver e (s.setSt b)) := by
  cases e with
  | tick => exact ⟨tickTimer b, rfl⟩
  | press k => exact ⟨b, rfl⟩
  | release k => exact ⟨b, rfl⟩

theorem haltedStep_setSt (s : State) (b : Byte) : haltedStep (s.setSt b) = (haltedStep s).setSt b := by
  have hpoll : pollAnyPressed (s.setSt b) = pollAnyPressed s := rfl
  rw [haltedStep, haltedStep, hpoll]
  cases pollAnyPressed s <;> rfl

theorem unseen_sameStateButSt : Unseen SameStateButSt where
  decides := by rintro s - ⟨b, rfl⟩; exact ⟨rfl, rfl, rfl, rfl, rfl, fun i => by cases i <;> rfl⟩
  setSchedule := by rintro s - l ⟨b, rfl⟩; exact ⟨b, rfl⟩
  setPc := by rintro s - w ⟨b, rfl⟩; exact ⟨b, rfl⟩
  setDiag := by rintro s - d ⟨b, rfl⟩; exact ⟨b, rfl⟩
  deliver := by rintro s - e ⟨b, rfl⟩; exact deliver_setSt e s b
  haltedStep := by rintro s - ⟨b, rfl⟩; exact ⟨b, haltedStep_setSt s b⟩
  effect := by rintro s - i ⟨b, rfl⟩; exact effect_setSt i s b

theorem sameButSt_of_related {r q : Result} : ResultsRelated SameStateButSt r q → SameButSt r q
  | .next h => h
  | .fault _ => rfl
  | .refused _ => rfl

/-- Settles O33: the machine tells no two sound timers apart. -/
theorem soundTimerNeverFlowsBack : Obligations.SoundTimerNeverFlowsBack := by
  unfold Obligations.SoundTimerNeverFlowsBack
  exact fun s b => sameButSt_of_related (unseen_sameStateButSt.step ⟨b, rfl⟩)

end Sys2Proof.Machine
end

section
/-! The obligations about control flow (spec/40_control_flow.md R120 to R127) and the keypad's instructions
(spec/44_keypad_timers.md R190 to R192), with how the words of the statements decode. -/

namespace Sys2Proof

open Sys2Proof.Claims

/-! ### The words of the statements decode (R92, R94) -/

theorem ofNat_reg_eq (x : Reg) : BitVec.ofNat 16 x.val = (BitVec.ofFin x : BitVec 4).setWidth 16 := BitVec.ofNat_toNat 16 _

theorem wordR_eq_formatR (base : Nat) (x y : Reg) : wordR base x y = formatR (BitVec.ofNat 16 base) x y := by
  rw [wordR, formatR, putX, putY, ofNat_reg_eq, ofNat_reg_eq]

theorem wordI_eq_formatI (base : Nat) (x : Reg) (nn : Byte) :
    wordI base x nn = formatI (BitVec.ofNat 16 base) x nn := by
  rw [wordI, formatI, putX, ofNat_reg_eq, BitVec.ofNat_toNat]

section
variable {base : Nat} {i : Instr}

theorem decode_wordR {x y : Reg} (h : encode i = formatR (BitVec.ofNat 16 base) x y) (hwf : i.wellFormed = true) :
    decode (wordR base x y) = .instr i := by
  rw [wordR_eq_formatR, ← h, decode_encode i hwf]

theorem decode_wordI {x : Reg} {nn : Byte} (h : encode i = formatI (BitVec.ofNat 16 base) x nn)
    (hwf : i.wellFormed = true) : decode (wordI base x nn) = .instr i := by
  rw [wordI_eq_formatI, ← h, decode_encode i hwf]

theorem decode_wordA {nnn : Addr12} (h : encode i = formatA (BitVec.ofNat 16 base) nnn) (hwf : i.wellFormed = true) :
    decode (wordA base nnn) = .instr i := by
  rw [wordA_eq_formatA, ← h, decode_encode i hwf]

theorem decode_wordF {x : Reg} (h : encode i = formatF (BitVec.ofNat 16 base) x) (hwf : i.wellFormed = true) :
    decode (wordF base x) = .instr i := by
  rw [wordF_eq_formatF, ← h, decode_encode i hwf]

end

end Sys2Proof

namespace Sys2Proof.Machine

open Sys2Proof.Claims

/-! ### Jumps and skips -/

/-- Setting pc changes nothing else. -/
theorem onlyPc_setPc (s : State) (w : Word) : OnlyPc s (s.setPc w) := ⟨fun _ _ => rfl, fun _ => rfl, rfl⟩

/-- A fetch above 4094 faults for the first of its addresses outside (R65). -/
theorem fetch_of_pc_gt {s : State} {a : Nat} (hpc : s.pc.toNat = a) (h : 4094 < a) :
    fetch s = .error (.outOfBounds (max a 4096)) := by
  subst hpc
  exact fetch_error (Nat.succ_le_succ h)

/-- Settles O34: each jump is one `setPc`, whose word is the whole target. -/
theorem jumpsSetPc : Obligations.JumpsSetPc := by
  unfold Obligations.JumpsSetPc
  intro nnn s
  refine ⟨decode_wordA rfl rfl, decode_wordA rfl rfl, ⟨_, exec_of_faultOf_none rfl, toNat_absAddress nnn, onlyPc_setPc s _,
    ?beyond, ?self⟩, _, exec_of_faultOf_none rfl, toNat_indexedAddress nnn _, onlyPc_setPc s _, ?beyondV0⟩
  case beyond =>
    intro h
    have hn := nnn.isLt
    have hmax : max nnn.toNat 4096 = 4096 := max_eq_right (by omega)
    rw [fetch_of_pc_gt (toNat_absAddress nnn) h, hmax]
  case self =>
    intro h
    have hn := toNat_absAddress nnn
    have hback : absAddress nnn = s.pc - 2 := by bv_omega
    exact congrArg s.setPc hback
  case beyondV0 => exact fetch_of_pc_gt (toNat_indexedAddress nnn _)

/-- Settles O35: from `addr + 2` a skip adds 2 again, and equal bytes are equal numbers. -/
theorem compareAndSkip : Obligations.CompareAndSkip := by
  unfold Obligations.CompareAndSkip
  intro x y nn addr s hpc
  have hskip : s.pc + 2 = addr + 4 := by rw [hpc, BitVec.add_assoc]; rfl
  simp only [reg, BitVec.toNat_inj, ← hskip, ← hpc]
  refine ⟨⟨decode_wordI rfl rfl, decode_wordI rfl rfl, decode_wordR rfl rfl, decode_wordR rfl rfl⟩,
    ⟨_, exec_of_faultOf_none rfl, rfl, onlyPc_setPc s _⟩, ⟨_, exec_of_faultOf_none rfl, ite_not .., onlyPc_setPc s _⟩, ?fetch,
    ⟨_, exec_of_faultOf_none rfl, rfl, onlyPc_setPc s _⟩, ⟨_, exec_of_faultOf_none rfl, ite_not .., onlyPc_setPc s _⟩⟩
  case fetch =>
    intro haddr t ht
    have htpc : t.pc.toNat = 4098 := by rw [ht, hskip]; bv_omega
    exact fetch_of_pc_gt htpc (by decide)

/-! ### Call and return -/

/-- Settles O36: below the bound the table of faults has none for a call, at the bound the overflow. -/
theorem callPushesReturnAddress : Obligations.CallPushesReturnAddress := by
  unfold Obligations.CallPushesReturnAddress
  intro nnn s
  refine ⟨decode_wordA rfl rfl, fun hroom => ?_, fun hfull => exec_of_faultOf_some (if_pos hfull.ge)⟩
  have hok : faultOf (.call nnn) s = none := if_neg (Nat.not_le.2 hroom)
  exact ⟨_, exec_of_faultOf_none hok, rfl, toNat_absAddress nnn, fun _ _ => rfl, fun _ => rfl, rfl⟩

/-- Settles O37: only an empty stack has a fault in the table, and otherwise the effect pops. -/
theorem returnPopsIntoPc : Obligations.ReturnPopsIntoPc := by
  unfold Obligations.ReturnPopsIntoPc
  intro s
  refine ⟨decode_encode .ret rfl, fun top rest hstack => ?_, fun hempty => exec_of_faultOf_some (if_pos hempty)⟩
  have hok : faultOf .ret s = none := if_neg (by simp [hstack])
  have heffect : effect .ret s = (s.setStack rest).setPc top := by simp [effect, hstack]
  have hexec := exec_of_faultOf_none hok
  rw [heffect] at hexec
  exact ⟨_, hexec, rfl, rfl, fun _ _ => rfl, fun _ => rfl, rfl⟩

/-! ### Keys -/

theorem keyLevel_of_key {s : State} {a : Byte} {k : Key} (h : a.toNat % 16 = k.val) : keyLevel s a = isPressed s k := by
  have hkey : Fin.ofNat 16 a.toNat = k := Fin.ext h
  rw [keyLevel, hkey]

/-- Settles O54: a key number has no fault in the table, and the effect skips on the level of that key. -/
theorem keySkipsReadTheLevel : Obligations.KeySkipsReadTheLevel := by
  unfold Obligations.KeySkipsReadTheLevel
  intro x s
  refine ⟨⟨decode_wordF rfl rfl, decode_wordF rfl rfl⟩, fun k hkey => ?key, fun hbad => ?bad⟩
  case key =>
    have hlt : reg s x < 16 := hkey.trans_lt k.isLt
    have hlevel : keyLevel s (readReg s x) = isPressed s k := keyLevel_of_key ((Nat.mod_eq_of_lt hlt).trans hkey)
    have hskp : faultOf (.skp x) s = none := if_neg (by omega)
    have hsknp : faultOf (.sknp x) s = none := if_neg (by omega)
    rw [← hlevel]
    exact ⟨⟨_, exec_of_faultOf_none hskp, rfl, onlyPc_setPc s _⟩, _, exec_of_faultOf_none hsknp, rfl, onlyPc_setPc s _⟩
  case bad => exact ⟨exec_of_faultOf_some (if_pos hbad), exec_of_faultOf_some (if_pos hbad)⟩

/-- Settles O55: only out of range is the policy asked, and there the three answers are those of the list. -/
theorem keyRangePoliciesAsListed : Obligations.KeyRangePoliciesAsListed := by
  unfold Obligations.KeyRangePoliciesAsListed
  intro want x s
  constructor
  · intro hbad
    have hout : ∀ p, keySkip p want x s = keyOutOfRange p want (readReg s x) s := by
      intro p
      obtain ⟨hlt, _⟩ | ⟨-, h⟩ := keySkip_cases p want x s
      · exact absurd hbad (Nat.not_lt.2 (Nat.le_of_lt_succ hlt))
      · exact h
    refine ⟨hout .fault, fun k hk => ?mask4, ?notPressed⟩
    case mask4 =>
      rw [hout, keyOutOfRange, ← keyLevel, keyLevel_of_key hk.symm, skipIf_eq]
      simp only [beq_iff_eq]
    case notPressed =>
      rw [hout, keyOutOfRange, skipIf_eq]
      cases want <;> rfl
  · intro hkey p
    have hin : ∀ q, keySkip q want x s =
        .next (skipIf (isPressed s ⟨(readReg s x).toNat, Nat.lt_succ_of_le hkey⟩ == want) s) := by
      intro q
      obtain ⟨_, h⟩ | ⟨hge, -⟩ := keySkip_cases q want x s
      · exact h
      · exact absurd hkey (Nat.not_le.2 hge)
    rw [hin, hin]

/-- Settles O56: the effect is two field updates, and the keys are not among what it reads. -/
theorem waitForKeyOnlyHalts : Obligations.WaitForKeyOnlyHalts := by
  unfold Obligations.WaitForKeyOnlyHalts
  intro x s
  exact ⟨decode_wordF rfl rfl, _, exec_of_faultOf_none rfl, rfl, rfl, rfl, fun _ _ => rfl, fun _ => rfl, rfl⟩

end Sys2Proof.Machine
end

section
/-! The obligations about load, arithmetic, logic, shifts and the random byte (spec/41_load_arith_logic.md R140 to R152)
and FX1E (spec/42_index_memory.md R161). -/

namespace Sys2Proof.Machine

open Sys2Proof.Claims

/-! ### What the writes leave -/

theorem reg_writeReg_self (x : Reg) (b : Byte) (s : State) : reg (writeReg x b s) x = b.toNat :=
  congrArg BitVec.toNat (readReg_writeReg_self x b s)

theorem onlyRegs_resultThenFlag (x : Reg) (b : Byte) (f : Bool) (s : State) :
    OnlyRegs [x, 15] s (resultThenFlag x b f s) :=
  ⟨regsKept_resultThenFlag x b f s, fun _ => rfl, rfl⟩

theorem onlyRegs_flagThenResult (x : Reg) (b : Byte) (f : Bool) (s : State) :
    OnlyRegs [x, 15] s (flagThenResult x b f s) :=
  ⟨regsKept_flagThenResult x b f s, fun _ => rfl, rfl⟩

/-- "VX, then VF": the flag stays. -/
theorem reg_resultThenFlag_vf (x : Reg) (b : Byte) (f : Bool) (s : State) :
    reg (resultThenFlag x b f s) 15 = if f then 1 else 0 := by
  rw [reg, readReg_resultThenFlag_vf, flagByte_toNat]

/-- "VF, then VX": the result stays. -/
theorem reg_flagThenResult_x (x : Reg) (b : Byte) (f : Bool) (s : State) :
    reg (flagThenResult x b f s) x = b.toNat := by
  rw [reg, readReg_flagThenResult_x]

/-- "VF, then VX": the flag stays when X is not F. -/
theorem reg_flagThenResult_vf {x : Reg} (h : x ≠ 15) (b : Byte) (f : Bool) (s : State) :
    reg (flagThenResult x b f s) 15 = if f then 1 else 0 := by
  rw [reg, readReg_flagThenResult_vf h, flagByte_toNat]

/-! ### Loads, immediate add and logic -/

/-- Settles O39: each effect is one register write, of a byte whose number the word operations give. -/
theorem loadsAndLogicWriteOnlyVx : Obligations.LoadsAndLogicWriteOnlyVx := by
  unfold Obligations.LoadsAndLogicWriteOnlyVx
  intro x y nn s
  refine ⟨⟨decode_wordI rfl rfl, decode_wordI rfl rfl, decode_wordR rfl rfl, decode_wordR rfl rfl, decode_wordR rfl rfl,
    decode_wordR rfl rfl⟩, ?ld, ?add, ?ldR, ?or, ?and, ?xor⟩
  case ld => exact ⟨_, exec_of_faultOf_none rfl, reg_writeReg_self x nn s, onlyRegs_writeReg x _ s⟩
  case add =>
    exact ⟨_, exec_of_faultOf_none rfl, (reg_writeReg_self x _ s).trans (BitVec.toNat_add ..), onlyRegs_writeReg x _ s⟩
  case ldR => exact ⟨_, exec_of_faultOf_none rfl, reg_writeReg_self x _ s, onlyRegs_writeReg x _ s⟩
  case or =>
    exact ⟨_, exec_of_faultOf_none rfl, (reg_writeReg_self x _ s).trans (BitVec.toNat_or ..), onlyRegs_writeReg x _ s⟩
  case and =>
    exact ⟨_, exec_of_faultOf_none rfl, (reg_writeReg_self x _ s).trans (BitVec.toNat_and ..), onlyRegs_writeReg x _ s⟩
  case xor =>
    exact ⟨_, exec_of_faultOf_none rfl, (reg_writeReg_self x _ s).trans (BitVec.toNat_xor ..), onlyRegs_writeReg x _ s⟩

/-! ### Addition and subtraction -/

/-- Settles O40: the flag, written last, stays for every X. -/
theorem addWritesSumThenCarry : Obligations.AddWritesSumThenCarry := by
  unfold Obligations.AddWritesSumThenCarry
  intro x y s
  have hflag : reg (effect (.addR x y) s) 15 = if reg s x + reg s y > 255 then 1 else 0 := by
    rw [effect, reg_resultThenFlag_vf]
    simp only [carryOut, decide_eq_true_eq]
  have hsum : x ≠ 15 → reg (effect (.addR x y) s) x = (reg s x + reg s y) % 256 := by
    intro hx
    rw [effect, reg, readReg_resultThenFlag_x hx, BitVec.toNat_add]
  exact ⟨decode_wordR rfl rfl, _, exec_of_faultOf_none rfl, onlyRegs_resultThenFlag x _ _ s, hflag, hsum⟩

/-- The difference of bytes is the difference of the integers modulo 256 (R11). -/
theorem toNat_sub_eq_int_emod (a b : Byte) : ((a - b).toNat : Int) = ((a.toNat : Int) - b.toNat) % 256 := by
  have ha := a.isLt
  have hb := b.isLt
  rw [BitVec.toNat_sub]
  omega

/-- Settles O41: both are "VF, then VX" of a difference, with the operands in either order. -/
theorem subtractWritesBorrowThenDifference : Obligations.SubtractWritesBorrowThenDifference := by
  unfold Obligations.SubtractWritesBorrowThenDifference
  intro x y s
  have hdiff : ∀ a b : Byte, (reg (flagThenResult x (a - b) (noBorrow a b) s) x : Int) =
      ((a.toNat : Int) - b.toNat) % 256 := by
    intro a b
    rw [reg_flagThenResult_x, toNat_sub_eq_int_emod]
  have hflag : ∀ a b : Byte, x ≠ 15 →
      reg (flagThenResult x (a - b) (noBorrow a b) s) 15 = if a.toNat ≥ b.toNat then 1 else 0 := by
    intro a b hx
    rw [reg_flagThenResult_vf hx]
    simp only [noBorrow, decide_eq_true_eq]
  exact ⟨⟨decode_wordR rfl rfl, decode_wordR rfl rfl⟩,
    ⟨_, exec_of_faultOf_none rfl, onlyRegs_flagThenResult x _ _ s, hdiff _ _, hflag _ _⟩,
    _, exec_of_faultOf_none rfl, onlyRegs_flagThenResult x _ _ s, hdiff _ _, hflag _ _⟩

/-! ### Shifts -/

theorem lowBit_eq_mod (a : Byte) : (if lowBit a then 1 else 0) = a.toNat % 2 := by
  rw [lowBit, ← BitVec.testBit_toNat, Nat.testBit_zero]
  rcases Nat.mod_two_eq_zero_or_one a.toNat with h | h <;> simp [h]

theorem highBit_eq_div (a : Byte) : (if highBit a then 1 else 0) = a.toNat / 128 := by
  have ha := a.isLt
  rw [highBit, ← BitVec.testBit_toNat, Nat.testBit_eq_decide_div_mod_eq]
  have hdiv : a.toNat / 128 = 0 ∨ a.toNat / 128 = 1 := by omega
  rcases hdiv with h | h <;> simp [h]

/-- Settles O42: both are "VF, then VX" of the shifted byte and the bit shifted out. -/
theorem shiftsMoveOneBitIntoVf : Obligations.ShiftsMoveOneBitIntoVf := by
  unfold Obligations.ShiftsMoveOneBitIntoVf
  intro x y s
  refine ⟨⟨decode_wordR rfl rfl, decode_wordR rfl rfl⟩,
    ⟨_, exec_of_faultOf_none rfl, onlyRegs_flagThenResult x _ _ s, ?halved, ?low⟩,
    _, exec_of_faultOf_none rfl, onlyRegs_flagThenResult x _ _ s, ?doubled, ?high⟩
  case halved => rw [effect, reg_flagThenResult_x, BitVec.toNat_ushiftRight, Nat.shiftRight_one]
  case low =>
    intro hx
    rw [effect, reg_flagThenResult_vf hx, lowBit_eq_mod]
  case doubled => rw [effect, reg_flagThenResult_x, BitVec.toNat_shiftLeft, Nat.shiftLeft_eq, Nat.pow_one, Nat.mul_comm]
  case high =>
    intro hx
    rw [effect, reg_flagThenResult_vf hx, highBit_eq_div]

/-! ### The random byte -/

/-- A masked byte has no bit outside the mask. -/
theorem and_and_not_self (a b : Byte) : (a &&& b) &&& ~~~a = 0 := by
  rw [BitVec.and_comm a b, BitVec.and_assoc, BitVec.and_not_self]
  exact BitVec.and_zero

/-- Settles O43: the AND with NN bounds whatever byte is drawn. -/
theorem randomIsMaskedByNn : Obligations.RandomIsMaskedByNn := by
  unfold Obligations.RandomIsMaskedByNn
  intro x nn s
  have hread : readReg (effect (.rnd x nn) s) x = nn &&& Config.randomByte s.draws := readReg_writeReg_self x _ _
  have hreg : reg (effect (.rnd x nn) s) x = nn.toNat &&& (Config.randomByte s.draws).toNat := by
    rw [reg, hread, BitVec.toNat_and]
  have hmasked : readReg (effect (.rnd x nn) s) x &&& ~~~nn = 0 := by rw [hread, and_and_not_self]
  have hok : exec (.rnd x nn) s = .next (effect (.rnd x nn) s) := exec_of_faultOf_none rfl
  exact ⟨decode_wordI rfl rfl, _, hok, hreg, hreg ▸ Nat.and_le_left, hmasked, rfl,
    registersOutsideDestinationsKeep _ s _ hok, fun _ => rfl, rfl⟩

/-! ### The index register -/

/-- Settles O45: the flag is written first, but from the V[X] sampled before it. -/
theorem addToIndexWrapsAt12Bits : Obligations.AddToIndexWrapsAt12Bits := by
  unfold Obligations.AddToIndexWrapsAt12Bits
  intro x s
  have hidx : idx (effect (.addIdx x) s) = (idx s + reg s x) % 0x1000 := by
    have hlt : (idx s + reg s x) % 0x1000 < 0x1000 := Nat.mod_lt _ (by decide)
    exact (BitVec.toNat_ofNat ..).trans (Nat.mod_eq_of_lt (hlt.trans (by decide)))
  have hflag : reg (effect (.addIdx x) s) 15 = if idx s + reg s x > 0xFFF then 1 else 0 := by
    have hvf : reg (effect (.addIdx x) s) 15 = (flagByte (indexOverflow s.index (readReg s x))).toNat :=
      reg_writeReg_self vf _ s
    rw [hvf, flagByte_toNat]
    simp only [indexOverflow, decide_eq_true_eq]
  have hok : exec (.addIdx x) s = .next (effect (.addIdx x) s) := exec_of_faultOf_none rfl
  exact ⟨decode_wordF rfl rfl, _, hok, hidx, hflag, registersOutsideDestinationsKeep _ s _ hok, fun _ => rfl, rfl⟩

end Sys2Proof.Machine
end

section
/-! The obligations about FX33, FX55 and FX65 (spec/42_index_memory.md R163 to R166) and a store over the instruction
stream (spec/20_memory.md R71, R73). -/

namespace Sys2Proof.Machine

open Sys2Proof.Claims

/-! ### A block stored at I -/

/-- A block that fits moves only its own bytes. -/
theorem onlyBytes_setMem_pokeBytes (s : State) (bs : List Byte) :
    OnlyBytes (effectiveAddress s 0) bs.length s (s.setMem (Memory.pokeBytes s.mem s.index.toNat bs)) :=
  ⟨fun _ _ => rfl, fun _ hb => memRead_pokeBytes_outside s.mem bs hb, rfl⟩

/-- Byte `k` of a block that fits stands at `I + k`. -/
theorem memRead_stored {s : State} {bs : List Byte} {k : Nat} (hk : k < bs.length) (hfits : idx s + bs.length ≤ 4096) :
    memRead (s.setMem (Memory.pokeBytes s.mem s.index.toNat bs)).mem (effectiveAddress s k) = .ok bs[k] :=
  memRead_pokeBytes_inside s.mem hk hfits

/-- The three digits are below 10, so a byte holds each whole (R163). -/
theorem toNat_bcdDigits (a : Byte) :
    (BitVec.ofNat 8 (a.toNat / 100)).toNat = a.toNat / 100 ∧
    (BitVec.ofNat 8 (a.toNat / 10 % 10)).toNat = a.toNat / 10 % 10 ∧
    (BitVec.ofNat 8 (a.toNat % 10)).toNat = a.toNat % 10 := by
  have ha := a.isLt
  simp only [BitVec.toNat_ofNat]
  omega

/-- Settles O46: the block of the three digits fits exactly when the table has no fault. -/
theorem bcdStoresThreeDigits : Obligations.BcdStoresThreeDigits := by
  unfold Obligations.BcdStoresThreeDigits
  intro x s
  refine ⟨decode_wordF rfl rfl, fun hfits => ?_, fun hout => exec_of_faultOf_some (if_pos hout)⟩
  have hok : faultOf (.ldB x) s = none := if_neg (Nat.not_lt.2 hfits)
  have hlen : idx s + (bcdDigits (readReg s x)).length ≤ 4096 := Nat.succ_le_succ hfits
  obtain ⟨hundreds, htens, hones⟩ := toNat_bcdDigits (readReg s x)
  exact ⟨_, _, _, _, exec_of_faultOf_none hok, memRead_stored (k := 0) (by simp) hlen,
    memRead_stored (k := 1) (by simp) hlen, memRead_stored (k := 2) (by simp) hlen, hundreds, htens, hones,
    onlyBytes_setMem_pokeBytes s _⟩

/-! ### The registers stored and loaded -/

section
variable {x : Reg} {s : State} (hfits : idx s + x.val ≤ 4095)
include hfits

theorem exec_stRegs_of_fits : exec (.stRegs x) s = .next (effect (.stRegs x) s) :=
  exec_of_faultOf_none (if_neg (Nat.not_lt.2 hfits))

theorem exec_ldRegs_of_fits : exec (.ldRegs x) s = .next (effect (.ldRegs x) s) :=
  exec_of_faultOf_none (if_neg (Nat.not_lt.2 hfits))

/-- FX55 puts V[k] at I + k. -/
theorem memRead_effect_stRegs {k : Reg} (hk : k ≤ x) :
    memRead (effect (.stRegs x) s).mem (effectiveAddress s k.val) = .ok (readReg s k) := by
  have hkx : k.val < (regsUpTo s x).length := (regsUpTo_length s x).symm ▸ Nat.lt_succ_of_le hk
  have hlen : idx s + (regsUpTo s x).length ≤ 4096 := (regsUpTo_length s x).symm ▸ Nat.succ_le_succ hfits
  exact (memRead_stored hkx hlen).trans (congrArg Except.ok (regsUpTo_getElem s x k.val hkx))

/-- FX65 takes V[k] from I + k. -/
theorem memRead_eq_readReg_effect_ldRegs {k : Reg} (hk : k ≤ x) :
    memRead s.mem (effectiveAddress s k.val) = .ok (readReg (effect (.ldRegs x) s) k) := by
  have hkx : k.val < (bytesAtIndex s (x.val + 1)).length := (bytesAtIndex_length s _).symm ▸ Nat.lt_succ_of_le hk
  have hin : idx s + k.val < 4096 := Nat.lt_succ_of_le ((Nat.add_le_add_left hk _).trans hfits)
  rw [effect, readReg_setV_writeRegsFrom, dif_pos hkx, bytesAtIndex_getElem]
  exact memRead_ok hin

end

/-- Settles O47: the block of V[0] to V[X] has X + 1 bytes. -/
theorem blockStoreWritesV0ToVx : Obligations.BlockStoreWritesV0ToVx := by
  unfold Obligations.BlockStoreWritesV0ToVx
  intro x s
  refine ⟨decode_wordF rfl rfl, fun hfits => ?_, fun hout => exec_of_faultOf_some (if_pos hout)⟩
  exact ⟨_, exec_stRegs_of_fits hfits, fun _ hk => memRead_effect_stRegs hfits hk,
    regsUpTo_length s x ▸ onlyBytes_setMem_pokeBytes s (regsUpTo s x)⟩

/-- Settles O48: the registers up to X take the block, and those above X are past it. -/
theorem blockLoadReadsV0ToVx : Obligations.BlockLoadReadsV0ToVx := by
  unfold Obligations.BlockLoadReadsV0ToVx
  intro x s
  refine ⟨decode_wordF rfl rfl, fun hfits => ?_, fun hout => exec_of_faultOf_some (if_pos hout)⟩
  exact ⟨_, exec_ldRegs_of_fits hfits, fun _ hk => memRead_eq_readReg_effect_ldRegs hfits hk,
    fun _ hk => readReg_blockLoad_above hk s, fun _ => rfl, rfl⟩

/-- Settles O49: the load reads at I + k what the store put there, since neither changes I. -/
theorem blockLoadGivesBackBlockStore : Obligations.BlockLoadGivesBackBlockStore := by
  unfold Obligations.BlockLoadGivesBackBlockStore
  intro x s v hfits
  have hfits' : idx ((effect (.stRegs x) s).setV v) + x.val ≤ 4095 := hfits
  refine ⟨_, _, exec_stRegs_of_fits hfits, exec_ldRegs_of_fits hfits', fun k hk => ?_,
    fun k hk => readReg_blockLoad_above hk _⟩
  have hload := memRead_eq_readReg_effect_ldRegs hfits' hk
  exact Except.ok.inj (hload.symm.trans (memRead_effect_stRegs hfits hk))

/-- Settles O11: the fetch at I reads the two bytes that the store put at I and I + 1. -/
theorem storedInstructionIsFetched : Obligations.StoredInstructionIsFetched := by
  unfold Obligations.StoredInstructionIsFetched
  intro x s hx hfits
  have hone : (1 : Reg) ≤ x := hx
  have hhi := memRead_effect_stRegs hfits (Fin.zero_le x)
  have hlo := memRead_effect_stRegs hfits hone
  exact ⟨_, _, exec_stRegs_of_fits hfits, fetch_of_memRead (s := (effect (.stRegs x) s).setPc s.index) hhi hlo,
    toNat_wordOfBytes _ _⟩

end Sys2Proof.Machine
end
